-- ==== Sys2Proof/Word.lean ====
section
/-! DEFINITION. The word, the byte, and the three register files made of words (spec/00_scope.md R6, R9;
spec/10_state.md R21, R22, R28). The operations on words stand in Machine/WordOps.lean. -/

namespace Sys2Proof

/-- A word: "an unsigned 32-bit integer" (R6, R7). Its `+`, `&&&`, `|||`, `^^^`, `~~~`, `>>>`, `<<<` are the
operators of R8: addition is modulo 2^32, both shifts fill with zeros. -/
abbrev Word := BitVec 32

/-- A byte, 8 bits (R9). -/
abbrev Byte := BitVec 8

/-- A digest state: exactly 8 words (R6, R21). -/
abbrev Digest := Vector Word 8

/-- A block: exactly 16 words, 64 bytes (R6, R22). A block of another size cannot be written (R202). -/
abbrev Block := Vector Word 16

/-- A message schedule: exactly 64 words (R6, R28). -/
abbrev MsgSchedule := Vector Word 64

end Sys2Proof
end

