-- ==== Sys2Proof/Syntax.lean ====
section
/-! DEFINITION. The command words as syntax: one constructor for each row of spec/opcode_table.json
(spec/30_encoding.md R70 to R74). -/

namespace Sys2Proof

/-- A command. The bits a command ignores (R70, R74: bits 31:11, and TAIL_LEN of every opcode but PAD_LAST) are
not operands: R25 keeps nothing of them (log 12). -/
inductive Instr where
  /-- OP = 0x0, NOP (spec/44_commands.md R161). -/
  | nop
  /-- OP = 0x1, INIT (R162). -/
  | init
  /-- OP = 0x2, COMPRESS (R163). -/
  | compress
  /-- OP = 0x3, PAD_LAST with its tail length in bytes, an unsigned count 0 to 127 (R72, R164). -/
  | padLast (tailLen : Nat)
  /-- OP = 0x4 to 0x7, reserved (R165); `op` is the opcode. -/
  | reserved4to7 (op : Nat)
  /-- OP = 0x8 to 0xF, reserved (R165); `op` is the opcode. -/
  | reserved8toF (op : Nat)
deriving DecidableEq, Repr

end Sys2Proof
end

