-- ==== Sys2Proof/WellFormed.lean ====
section
/-! DEFINITION. Which commands can be written as a command word (spec/30_encoding.md R71, R72, R76). -/

namespace Sys2Proof

/-- The operands that some command word carries: a tail length of 7 bits ("`PAD_LAST L` with `L` above 127 cannot
be written", R76), a reserved opcode inside its row (R71). -/
def Instr.wellFormed : Instr → Bool
  | .nop => true
  | .init => true
  | .compress => true
  | .padLast tailLen => decide (tailLen < 128)
  | .reserved4to7 op => decide (4 ≤ op) && decide (op < 8)
  | .reserved8toF op => decide (8 ≤ op) && decide (op < 16)

/-- `wellFormed` as a proposition. -/
abbrev Instr.WF (i : Instr) : Prop := i.wellFormed = true

end Sys2Proof
end

