-- ==== Sys2Proof/Decode.lean ====
section
/-! DEFINITION. Decoding and encoding of command words (spec/30_encoding.md R70 to R74). There is one format, one
32-bit word; every word selects exactly one row of the table, so decoding never rejects a word. -/

namespace Sys2Proof

/-- OP = CMD[3:0] (R70, R71). -/
def opField (v : Word) : BitVec 4 := v.extractLsb' 0 4

/-- TAIL_LEN = zext_32(cmd[10:4]), neither scaled nor sign-extended (R72). -/
def tailField (v : Word) : Nat := (v.extractLsb' 4 7).toNat

/-- The row a command word selects (R71). Bits 31:11, and TAIL_LEN outside PAD_LAST, are ignored (R74). -/
def decode (v : Word) : Instr :=
  let op := (opField v).toNat
  if op = 0x0 then .nop
  else if op = 0x1 then .init
  else if op = 0x2 then .compress
  else if op = 0x3 then .padLast (tailField v)
  else if op < 0x8 then .reserved4to7 op
  else .reserved8toF op

/-- The opcode of a command (R71). -/
def Instr.opcode : Instr → BitVec 4
  | .nop => 0x0#4
  | .init => 0x1#4
  | .compress => 0x2#4
  | .padLast _ => 0x3#4
  | .reserved4to7 op => BitVec.ofNat 4 op
  | .reserved8toF op => BitVec.ofNat 4 op

/-- The TAIL_LEN bits of a command (R72): zero for every opcode but PAD_LAST, as in R76's command words. -/
def Instr.tailBits : Instr → BitVec 7
  | .nop => 0#7
  | .init => 0#7
  | .compress => 0#7
  | .padLast tailLen => BitVec.ofNat 7 tailLen
  | .reserved4to7 _ => 0#7
  | .reserved8toF _ => 0#7

/-- A command's word with given bits in the ignored places 31:11 (R70: the pattern `x…x LLLLLLL OOOO`). -/
def encodeWith (ignored : BitVec 21) (i : Instr) : Word :=
  ignored ++ i.tailBits ++ i.opcode

/-- A command's word as the assembler writes it (R76), the ignored bits 0: `PAD_LAST L` is `(L << 4) | 0x3`. -/
def encode (i : Instr) : Word := encodeWith 0#21 i

/-- One row of the opcode table: a word selects it when `word & mask = pattern` (R71). -/
structure Row where
  pattern : Word
  mask : Word
deriving DecidableEq, Repr

/-- The row of spec/opcode_table.json that a constructor stands for. -/
def rowOf : Instr → Row
  | .nop => ⟨0x00000000#32, 0x0000000F#32⟩
  | .init => ⟨0x00000001#32, 0x0000000F#32⟩
  | .compress => ⟨0x00000002#32, 0x0000000F#32⟩
  | .padLast _ => ⟨0x00000003#32, 0x0000000F#32⟩
  | .reserved4to7 _ => ⟨0x00000004#32, 0x0000000C#32⟩
  | .reserved8toF _ => ⟨0x00000008#32, 0x00000008#32⟩

/-- The table's rows, in its order. -/
def tableRows : List Row :=
  [rowOf .nop, rowOf .init, rowOf .compress, rowOf (.padLast 0), rowOf (.reserved4to7 4), rowOf (.reserved8toF 8)]

/-- A word selects a row. -/
def Row.selects (r : Row) (v : Word) : Bool := (v &&& r.mask) == r.pattern

/-- The host's view of the decoder: the command of the word `w mod 2^nbits`. A command is one 32-bit word and
nothing longer (R70), so a value that does not fit in 32 bits is no command. -/
def decodeTableWord (nbits w : Nat) : Option Instr :=
  if w % 2 ^ nbits < 2 ^ 32 then some (decode (BitVec.ofNat 32 (w % 2 ^ nbits))) else none

end Sys2Proof
end

