-- ==== Sys2Proof/Config.lean ====
section
/-! DEFINITION. What the platform fixes and the spec leaves open (spec/00_scope.md R6: the parameters marked
OPEN), and the free values of the model. Every constant here is opaque: nothing can evaluate it, so a statement
holds whatever its value is. -/

namespace Sys2Proof.Config

/-- The open parameter `BASE`: the address of the register window's offset 0 (spec/20_memory.md R50), for
instance `k` of the platform (R206). A host access in this model carries its offset from it (log 9). -/
opaque base : Nat → Nat

/-- The open parameter `STEP_CYCLES`: clock cycles per engine step (spec/70_reset_and_hazards.md R228). No
definition reads it, as no rule does (log 10). -/
opaque stepCycles : Nat

/-- `N_INSTANCES - 1` for the open parameter `N_INSTANCES` ≥ 1 (spec/60_exceptions.md R206). -/
opaque moreInstances : Nat

/-- `N_INSTANCES`, at least 1 (R206). -/
def nInstances : Nat := moreInstances + 1

/-- FREE VALUE. How many host steps the interleaving puts before the next engine step while `phase = RUN`; its
argument counts the draws. The interleaving is free (R59, R228; spec/93_implementation_defined.md S12); that
the answer is a finite number is the weak fairness of R59 (log 3). -/
opaque freeWait : Nat → Nat

end Sys2Proof.Config
end

