-- ==== Sys2Proof/Machine/State.lean ====
section
/-! DEFINITION. The machine's state as plain data: one SHA256CE instance (spec/10_state.md R20, the complete
table), the host agent that drives it (spec/20_memory.md R59), and the model's own record of the interleaving. -/

namespace Sys2Proof.Machine

/-- The sequencer's phase (R26). `STATUS.BUSY` is 1 exactly in `run` (R30). -/
inductive Phase where
  | idle
  | run
deriving DecidableEq, Repr

/-- The working variables `a, b, c, d, e, f, g, h` (R27). -/
structure Working where
  a : Word
  b : Word
  c : Word
  d : Word
  e : Word
  f : Word
  g : Word
  h : Word
deriving DecidableEq, Repr

/-- One SHA256CE instance: the complete state of R20, "Nothing not in this table is state". -/
structure Engine where
  /-- `H[0..7]`, the digest state (R21). -/
  h : Digest
  /-- `BLK[0..15]`, the block buffer (R22). -/
  blk : Block
  /-- `MSGLEN`, a byte count (R23). -/
  msgLen : BitVec 64
  /-- `STATUS.ERR` (R24, R191). -/
  err : BitVec 4
  /-- `STATUS.DONE` (R24, R166). -/
  done : Bool
  /-- The sequencer's phase, read as `STATUS.BUSY` (R26, R30). -/
  phase : Phase
  /-- The round counter, 0 to 64 (R26). -/
  t : Fin 65
  /-- The blocks still to be compressed, the one being compressed at the head (R26). -/
  pend : List Block
  /-- The working variables (R27). -/
  vars : Working
  /-- `W[0..63]`, the message schedule (R28). -/
  w : MsgSchedule
deriving DecidableEq, Repr

/-- R20, R220: the values after reset. R20 leaves `t`, `vars` and `w` unspecified and never observable: here they
are zero (DESIGN CHOICE, unsafe, log 5). -/
def Engine.reset : Engine where
  h := iv
  blk := Vector.replicate 16 0#32
  msgLen := 0#64
  err := 0#4
  done := false
  phase := .idle
  t := 0
  pend := []
  vars := ⟨0#32, 0#32, 0#32, 0#32, 0#32, 0#32, 0#32, 0#32⟩
  w := Vector.replicate 64 0#32

/-- The widths a bus access can have beside the 32 bits of R52. -/
inductive OtherWidth where
  | bits8
  | bits16
  | bits64
deriving DecidableEq, Repr

/-- One thing the outside does to the engine, in the notation of spec/30_encoding.md R75. Offsets are byte offsets
from `BASE` (R50). -/
inductive HostOp where
  /-- `rd REG`: `MemRead(BASE+off, 4)` (R54). -/
  | rd (off : Nat)
  /-- `wr REG, v`: `MemWrite(BASE+off, 4, v)` (R55). -/
  | wr (off : Nat) (v : Word)
  /-- `poll`: reads of STATUS until one has BUSY = 0 (R75). -/
  | poll
  /-- A read or write of another width, which R52 puts outside the specification. -/
  | nonWord (off : Nat) (width : OtherWidth)
  /-- The reset input asserted (spec/70_reset_and_hazards.md R220, R221). -/
  | reset
deriving DecidableEq, Repr

/-- The host agent (R5, R59). Both fields are the model's own (log 1, log 2). -/
structure HostAgent where
  /-- What the host has still to do, in program order. -/
  todo : List HostOp
  /-- The offsets read so far and the values returned (R54), newest first. -/
  reads : List (Nat × Word)
deriving DecidableEq, Repr

/-- The interleaving of host and engine while `phase = RUN`, free and weakly fair (R59, R228). Both fields are the
model's own (log 3). -/
structure Turns where
  /-- How many host steps come before each of the next engine steps; past its end the numbers are
  `Config.freeWait`. -/
  waits : List Nat
  /-- How many free values have been drawn. -/
  drawn : Nat
deriving DecidableEq, Repr

/-- The state: one instance, its host, the interleaving. -/
structure State where
  engine : Engine
  host : HostAgent
  turns : Turns
deriving DecidableEq, Repr

/-- The state right after reset (R220), with a host that has nothing to do and an interleaving that is wholly free
(DESIGN CHOICE, log 1, log 2, log 3). -/
def State.reset : State where
  engine := Engine.reset
  host := { todo := [], reads := [] }
  turns := { waits := [], drawn := 0 }

/-- Why the machine stops with a fault. No command faults: an error of SHA256CE is a next state (R190, R198). -/
inductive Fault where
  /-- Raised by a host access at an offset outside the 256-byte window (R50). Safe: the spec says nothing of such
  an address, and the model goes no further (log 7). -/
  | outsideWindow (off : Nat)
deriving DecidableEq, Repr

/-- Why the machine refuses to go on. -/
inductive Refusal where
  /-- Raised by exec's arm of a command that has no meaning yet. Safe. No arm of this model raises it. -/
  | notModelled (mnemonic : String)
  /-- Raised by a host access of another width than 32 bits: "a model refuses it" (R52). Safe (log 6). -/
  | busNonWord (off : Nat)
  /-- Raised by a 32-bit host access at an offset that is not a multiple of 4: "a model refuses it" (R52). Safe
  (log 6). -/
  | busMisaligned (off : Nat)
deriving DecidableEq, Repr

end Sys2Proof.Machine
end

