-- ==== Sys2Proof/Machine/WordOps.lean ====
section
/-! DEFINITION. The combinational functions of the datapath (spec/41_word_ops.md R100 to R109). They write no
state, have no flags and raise no error; the host cannot invoke them. -/

namespace Sys2Proof.Machine

/-- R100: circular right shift, the amount taken modulo 32. -/
def rotateRight (x : Word) (n : Nat) : Word :=
  let m := n % 32
  if m = 0 then x else (x >>> m) ||| (x <<< (32 - m))

/-- R101: logical right shift, defined for amounts below 32 only, which the type says: a model "refuses other
amounts", and here none can be written. -/
def shiftRight (x : Word) (n : Fin 32) : Word := x >>> n.val

/-- R102: bitwise select. -/
def choose (x y z : Word) : Word := (x &&& y) ^^^ (~~~x &&& z)

/-- R103: bitwise majority vote. -/
def majority (x y z : Word) : Word := (x &&& y) ^^^ (x &&& z) ^^^ (y &&& z)

/-- R104: the round function of working variable `a`. -/
def sigma0 (x : Word) : Word := rotateRight x 2 ^^^ rotateRight x 13 ^^^ rotateRight x 22

/-- R105: the round function of working variable `e`. -/
def sigma1 (x : Word) : Word := rotateRight x 6 ^^^ rotateRight x 11 ^^^ rotateRight x 25

/-- R106: the schedule function applied to `W[t-15]`. -/
def gamma0 (x : Word) : Word := rotateRight x 7 ^^^ rotateRight x 18 ^^^ shiftRight x 3

/-- R107: the schedule function applied to `W[t-2]`. -/
def gamma1 (x : Word) : Word := rotateRight x 17 ^^^ rotateRight x 19 ^^^ shiftRight x 10

/-- R108: the sum of several words, taken left to right, the carry out of bit 31 discarded at every partial sum. -/
def addWords (x : Word) (xs : List Word) : Word := xs.foldl (· + ·) x

/-- R9: big-endian assembly of four bytes, the first the most significant. -/
def be32 (b0 b1 b2 b3 : Byte) : Word :=
  (b0.zeroExtend 32 <<< 24) ||| (b1.zeroExtend 32 <<< 16) ||| (b2.zeroExtend 32 <<< 8) ||| b3.zeroExtend 32

/-- R9, R168: byte `k` of a word, `k = 0` the most significant: `v[31-8k : 24-8k]`. -/
def wordByte (v : Word) (k : Nat) : Byte := v.extractLsb' (24 - 8 * k) 8

/-- R9: `BE64bytes`, the 8 bytes of a 64-bit value, most significant first. -/
def be64Bytes (v : BitVec 64) : List Byte :=
  [v.extractLsb' 56 8, v.extractLsb' 48 8, v.extractLsb' 40 8, v.extractLsb' 32 8,
   v.extractLsb' 24 8, v.extractLsb' 16 8, v.extractLsb' 8 8, v.extractLsb' 0 8]

end Sys2Proof.Machine
end

