-- ==== Sys2Proof/Machine/Compression.lean ====
section
/-! DEFINITION. The compression function (spec/43_compression.md R140 to R147): the message schedule, the 64-round
mixer and the feedback, as pure functions. The engine's steps (Machine/Sequencer.lean) are made of the same ones. -/

namespace Sys2Proof.Machine

/-- R142: the word `W[t]` for `16 ≤ t ≤ 63`, from the words before it. -/
def scheduleWord (w : MsgSchedule) (t : Nat) (_lo : 16 ≤ t) (_hi : t < 64) : Word :=
  addWords (gamma1 w[t - 2]) [w[t - 7], gamma0 w[t - 15], w[t - 16]]

/-- R149's first line: for `t ≥ 16`, `W[t]` is computed and written; before, the block's words stand. -/
def extendSchedule (w : MsgSchedule) (t : Nat) (hi : t < 64) : MsgSchedule :=
  if lo : 16 ≤ t then w.set t (scheduleWord w t lo hi) else w

/-- R141, R148: `W[0..15] <- B[0..15]`; the other words are not written (log 11). -/
def loadSchedule (b : Block) (w : MsgSchedule) : MsgSchedule :=
  Vector.ofFn fun i : Fin 64 => if h : i.val < 16 then b[i.val] else w[i.val]

/-- R141, R142: `Schedule(B)`. -/
def schedule (b : Block) : MsgSchedule :=
  Nat.fold 64 (fun t hi w => extendSchedule w t hi) (loadSchedule b (Vector.replicate 64 0#32))

/-- R143: the working variables initialised from a digest state, in order. -/
def Working.ofDigest (d : Digest) : Working :=
  { a := d[0], b := d[1], c := d[2], d := d[3], e := d[4], f := d[5], g := d[6], h := d[7] }

/-- R144: `T1 = h + sigma1(e) + choose(e,f,g) + K[t] + W[t]`. -/
def roundT1 (v : Working) (k w : Word) : Word :=
  addWords v.h [sigma1 v.e, choose v.e v.f v.g, k, w]

/-- R145: `T2 = sigma0(a) + majority(a,b,c)`. -/
def roundT2 (v : Working) : Word := addWords (sigma0 v.a) [majority v.a v.b v.c]

/-- R146: one round; all eight assignments read the values from before it. -/
def mixRound (v : Working) (k w : Word) : Working :=
  { a := addWords (roundT1 v k w) [roundT2 v]
    b := v.a
    c := v.b
    d := v.c
    e := addWords v.d [roundT1 v k w]
    f := v.e
    g := v.f
    h := v.g }

/-- R147: the elementwise sum of the digest state before the block and the working variables. -/
def feedback (d : Digest) (v : Working) : Digest :=
  #v[addWords d[0] [v.a], addWords d[1] [v.b], addWords d[2] [v.c], addWords d[3] [v.d],
     addWords d[4] [v.e], addWords d[5] [v.f], addWords d[6] [v.g], addWords d[7] [v.h]]

/-- The working variables after rounds 0 to `n - 1` on a finished schedule. -/
def rounds (w : MsgSchedule) (v : Working) (n : Nat) (hn : n ≤ 64) : Working :=
  Nat.fold n (fun t ht v => mixRound v roundK[t] w[t]) v

/-- R140: `Compress(Hin, B)`. -/
def compress (d : Digest) (b : Block) : Digest :=
  feedback d (rounds (schedule b) (Working.ofDigest d) 64 (Nat.le_refl 64))

/-- The fold of the compression function over a list of blocks (R164, R167). -/
def compressAll (d : Digest) (bs : List Block) : Digest := bs.foldl compress d

end Sys2Proof.Machine
end

