-- ==== Sys2Proof/Machine/Flags.lean ====
section
/-! DEFINITION. The STATUS register and its fields (spec/10_state.md R24, R30; spec/60_exceptions.md R191): the
only flags of SHA256CE (R31). -/

namespace Sys2Proof.Machine

/-- The causes of an error (R191). Code 0 is "no error"; codes 0x5 to 0xF are never produced. -/
inductive ErrCode where
  | busy
  | badOp
  | empty
  | tail
deriving DecidableEq, Repr

/-- The code recorded in STATUS.ERR (R191). -/
def ErrCode.bits : ErrCode → BitVec 4
  | .busy => 0x1#4
  | .badOp => 0x2#4
  | .empty => 0x3#4
  | .tail => 0x4#4

/-- `STATUS.BUSY` is 1 exactly when `phase = RUN` (R30). -/
def Engine.busy (e : Engine) : Bool :=
  match e.phase with
  | .idle => false
  | .run => true

/-- What a host read of STATUS returns: `{24'b0, ERR[3:0], 2'b00, DONE, BUSY}` (R24, R51). -/
def Engine.status (e : Engine) : Word :=
  0#24 ++ e.err ++ 0#2 ++ BitVec.ofBool e.done ++ BitVec.ofBool e.busy

end Sys2Proof.Machine
end

