-- ==== Sys2Proof/Machine/Operands.lean ====
section
/-! DEFINITION. What the operands of host accesses and commands stand for: the register an offset selects
(spec/20_memory.md R50 to R53), and the tail bytes PAD_LAST takes from the block buffer (R58; spec/42_padding.md
R121). -/

namespace Sys2Proof.Machine

/-- The size of the register window in bytes (R50). -/
def windowSize : Nat := 256

/-- The registers of the window (R51). -/
inductive Register where
  | cmd
  | status
  | msgLenLo
  | msgLenHi
  | h (i : Fin 8)
  | blk (j : Fin 16)
  | reserved
deriving DecidableEq, Repr

/-- The register map (R51), for a 4-byte-aligned offset inside the window. -/
def registerAt (off : Nat) : Register :=
  if off = 0x00 then .cmd
  else if off = 0x04 then .status
  else if off = 0x08 then .msgLenLo
  else if off = 0x0C then .msgLenHi
  else if hH : 0x20 ≤ off ∧ off < 0x40 then .h ⟨(off - 0x20) / 4, by omega⟩
  else if hB : 0x40 ≤ off ∧ off < 0x80 then .blk ⟨(off - 0x40) / 4, by omega⟩
  else .reserved

/-- What an address of the bus is to the window at `base`: an offset in it, or nothing (R50). -/
def offsetOf (base addr : Nat) : Option Nat :=
  if base ≤ addr ∧ addr < base + windowSize then some (addr - base) else none

/-- R58: byte `k` (0 to 63) of the block buffer, `BLK[k >> 2][31 - 8*(k & 3) : 24 - 8*(k & 3)]`. -/
def blkByte (blk : Block) (k : Fin 64) : Byte :=
  wordByte (blk[k.val / 4]'(by omega)) (k.val % 4)

/-- R121: the first `len` bytes of the block buffer; past byte 63 there is none. -/
def tailBytes (blk : Block) (len : Nat) : List Byte :=
  (List.ofFn (blkByte blk)).take len

/-- R58, R164 (`ToWords`): the 16 words of a 64-byte list, word `j` being `BE32` of bytes `4j` to `4j+3`. Every list
it is applied to has 64 bytes (R128 (a)). -/
def toWords (bytes : List Byte) : Block :=
  Vector.ofFn fun j : Fin 16 =>
    be32 (bytes.getD (4 * j.val) 0#8) (bytes.getD (4 * j.val + 1) 0#8)
      (bytes.getD (4 * j.val + 2) 0#8) (bytes.getD (4 * j.val + 3) 0#8)

end Sys2Proof.Machine
end

