-- ==== Sys2Proof/Machine/Ops.lean ====
section
/-! DEFINITION. The named operations over the registers: reads and writes of the window (spec/20_memory.md R51,
R54, R55), taking an error (spec/60_exceptions.md R190) and clearing it (R197), the block load
(spec/43_compression.md R148) and the checks of command acceptance (spec/44_commands.md R160). -/

namespace Sys2Proof.Machine

/-- R190, `raise Error(code)`: the code is recorded if none is, and nothing else changes; the write that raised it
is dropped. There is no trap to enter (R198). -/
def Engine.raise (e : Engine) (code : ErrCode) : Engine :=
  if e.err = 0#4 then { e with err := code.bits } else e

/-- R197: INIT's part of the recovery from an error (R199); there is no trap to return from. -/
def Engine.clearErr (e : Engine) : Engine := { e with err := 0#4 }

/-- R160, R192: an action that the engine performs only when idle; while `phase = RUN` it is dropped with
ERR_BUSY. -/
def Engine.whenIdle (e : Engine) (act : Engine → Engine) : Engine :=
  match e.phase with
  | .idle => act e
  | .run => e.raise .busy

/-- R160, R196: an action that is dropped without a new code while an error is recorded. -/
def Engine.whenNoError (e : Engine) (act : Engine → Engine) : Engine :=
  if e.err = 0#4 then act e else e

/-- R148, `LoadBlock(B)`: the schedule's first 16 words, the working variables from the committed `H`, `t <- 0`. -/
def Engine.loadBlock (e : Engine) (b : Block) : Engine :=
  { e with w := loadSchedule b e.w, vars := Working.ofDigest e.h, t := 0 }

/-- R163, R164: the acceptance of a command that runs, with a non-empty list of blocks `b :: rest`. -/
def Engine.startRun (e : Engine) (b : Block) (rest : List Block) : Engine :=
  { e with pend := b :: rest, phase := .run, done := false }.loadBlock b

/-- R51: what a host read of a register returns. -/
def Engine.readRegister (e : Engine) : Register → Word
  | .cmd => 0#32
  | .status => e.status
  | .msgLenLo => e.msgLen.extractLsb' 0 32
  | .msgLenHi => e.msgLen.extractLsb' 32 32
  | .h i => e.h[i]
  | .blk j => e.blk[j]
  | .reserved => 0#32

/-- R51, R54: what a host read at an aligned offset inside the window returns. -/
def Engine.read (e : Engine) (off : Nat) : Word := e.readRegister (registerAt off)

/-- R55: `MSGLEN[31:0] <- v`. -/
def Engine.writeMsgLenLo (e : Engine) (v : Word) : Engine :=
  { e with msgLen := e.msgLen.extractLsb' 32 32 ++ v }

/-- R55: `MSGLEN[63:32] <- v`. -/
def Engine.writeMsgLenHi (e : Engine) (v : Word) : Engine :=
  { e with msgLen := v ++ e.msgLen.extractLsb' 0 32 }

/-- R55: `H[i] <- v` if idle, else ERR_BUSY. -/
def Engine.writeH (e : Engine) (i : Fin 8) (v : Word) : Engine :=
  e.whenIdle fun e => { e with h := e.h.set i v }

/-- R55: `BLK[j] <- v`, in either phase. -/
def Engine.writeBlk (e : Engine) (j : Fin 16) (v : Word) : Engine :=
  { e with blk := e.blk.set j v }

/-- R55: a host write to any register but CMD, whose write presents a command (Machine/HostStep.lean). STATUS is
read only, a reserved offset ignores it. -/
def Engine.writeRegister (e : Engine) (r : Register) (v : Word) : Engine :=
  match r with
  | .cmd => e
  | .status => e
  | .msgLenLo => e.writeMsgLenLo v
  | .msgLenHi => e.writeMsgLenHi v
  | .h i => e.writeH i v
  | .blk j => e.writeBlk j v
  | .reserved => e

/-- The state with another engine state; the host and the interleaving are not touched. -/
def State.setEngine (s : State) (e : Engine) : State := { s with engine := e }

/-- A host read recorded: the offset and the value returned (R54, log 2). -/
def State.logRead (s : State) (off : Nat) (v : Word) : State :=
  { s with host := { s.host with reads := (off, v) :: s.host.reads } }

/-- What the host has still to do, replaced. -/
def State.setTodo (s : State) (ops : List HostOp) : State :=
  { s with host := { s.host with todo := ops } }

end Sys2Proof.Machine
end

