-- ==== Sys2Proof/Machine/Padding.lean ====
section
/-! DEFINITION. The padding unit: the bit-length encoder and the last-block formatter (spec/42_padding.md R120 to
R127), reached only through PAD_LAST. -/

namespace Sys2Proof.Machine

/-- R9: `zeros(k)`. -/
def zeroBytes (k : Nat) : List Byte := List.replicate k 0x00#8

/-- R122: the bit length `LEN64 = (8 * n) mod 2^64`. -/
def bitLength (n : BitVec 64) : BitVec 64 := BitVec.ofNat 64 (8 * n.toNat)

/-- R122: `Trailer(n) = BE64bytes(LEN64)`. -/
def trailer (n : BitVec 64) : List Byte := be64Bytes (bitLength n)

/-- R123, `L < 56`: one block. -/
def padOneBlock (tail : List Byte) (len : Nat) (n : BitVec 64) : List (List Byte) :=
  [tail ++ [0x80#8] ++ zeroBytes (55 - len) ++ trailer n]

/-- R124, `56 ≤ L < 64`: two blocks, the marker in the first. -/
def padSplit (tail : List Byte) (len : Nat) (n : BitVec 64) : List (List Byte) :=
  [tail ++ [0x80#8] ++ zeroBytes (63 - len), zeroBytes 56 ++ trailer n]

/-- R125, `L = 64`: two blocks, the marker in the second (spec/90_conflicts.md C1). -/
def padFull (tail : List Byte) (n : BitVec 64) : List (List Byte) :=
  [tail, [0x80#8] ++ zeroBytes 55 ++ trailer n]

/-- R120, R126: `PadBlocks(tail, L, n)`, the case chosen by `L` alone. The function "is not defined for `n = 0` or
`L > 64`" (R120): PAD_LAST never applies it there (log 13). -/
def padBlocks (tail : List Byte) (len : Nat) (n : BitVec 64) : List (List Byte) :=
  if len < 56 then padOneBlock tail len n
  else if len < 64 then padSplit tail len n
  else padFull tail n

/-- R126: `NumPadBlocks(L)`. -/
def numPadBlocks (len : Nat) : Nat := if len < 56 then 1 else 2

/-- The blocks PAD_LAST compresses: the tail taken from the block buffer (R121), padded (R126), as words (R164). -/
def padLastBlocks (blk : Block) (len : Nat) (n : BitVec 64) : List Block :=
  (padBlocks (tailBytes blk len) len n).map toWords

end Sys2Proof.Machine
end

