-- ==== Sys2Proof/Machine/Commands.lean ====
section
/-! DEFINITION. The meanings of the commands (spec/44_commands.md R160 to R165), each performed in full within the
host step that writes the command word. The order of the checks is R160's: NOP, BUSY, BADOP, INIT, the sticky
error, EMPTY, TAIL. -/

namespace Sys2Proof.Machine

/-- NOP (R161): nothing, in either phase and with any error. -/
def execNop (s : State) : Host.Outcome State Fault Refusal := .next s

/-- R162, `Init()`: `H <- IV`, the error cleared, DONE set. -/
def Engine.initDigest (e : Engine) : Engine := { e.clearErr with h := iv, done := true }

/-- INIT (R162): performed when idle, an error or not. -/
def execInit (s : State) : Host.Outcome State Fault Refusal :=
  .next (s.setEngine (s.engine.whenIdle Engine.initDigest))

/-- R163, `Compress_cmd()`: a copy of the block buffer is taken now. -/
def Engine.compressBlk (e : Engine) : Engine := e.startRun e.blk []

/-- COMPRESS (R163). -/
def execCompress (s : State) : Host.Outcome State Fault Refusal :=
  .next (s.setEngine (s.engine.whenIdle fun e => e.whenNoError Engine.compressBlk))

/-- R164, `PadLast_cmd(L)`: the padded blocks, one or two, are taken now. -/
def Engine.padLastRun (e : Engine) (tailLen : Nat) : Engine :=
  match padLastBlocks e.blk tailLen e.msgLen with
  | [] => e
  | b :: rest => e.startRun b rest

/-- R160's last two checks, on PAD_LAST's operands: EMPTY before TAIL (R194, R195). -/
def Engine.padLastChecked (e : Engine) (tailLen : Nat) : Engine :=
  if e.msgLen = 0#64 then e.raise .empty
  else if 64 < tailLen then e.raise .tail
  else e.padLastRun tailLen

/-- PAD_LAST (R164). -/
def execPadLast (tailLen : Nat) (s : State) : Host.Outcome State Fault Refusal :=
  .next (s.setEngine (s.engine.whenIdle fun e => e.whenNoError fun e => e.padLastChecked tailLen))

/-- R165, R193: a reserved opcode, ERR_BADOP when idle and ERR_BUSY when busy. -/
def Engine.rejectOpcode (e : Engine) : Engine := e.whenIdle fun e => e.raise .badOp

/-- Reserved opcodes 0x4 to 0x7 (R165); which of them it is does not matter. -/
def execReserved4to7 (_op : Nat) (s : State) : Host.Outcome State Fault Refusal :=
  .next (s.setEngine s.engine.rejectOpcode)

/-- Reserved opcodes 0x8 to 0xF (R165); which of them it is does not matter. -/
def execReserved8toF (_op : Nat) (s : State) : Host.Outcome State Fault Refusal :=
  .next (s.setEngine s.engine.rejectOpcode)

end Sys2Proof.Machine
end

