-- ==== Sys2Proof/Machine/Dispatch.lean ====
section
/-! DEFINITION. One arm per command: the row of spec/opcode_table.json it stands for has its meaning in
Machine/Commands.lean. -/

namespace Sys2Proof.Machine

def exec (i : Instr) (s : State) : Host.Outcome State Fault Refusal :=
  match i with
  | .nop => Sys2Proof.Machine.execNop s
  | .init => Sys2Proof.Machine.execInit s
  | .compress => Sys2Proof.Machine.execCompress s
  | .padLast tailLen => Sys2Proof.Machine.execPadLast tailLen s
  | .reserved4to7 op => Sys2Proof.Machine.execReserved4to7 op s
  | .reserved8toF op => Sys2Proof.Machine.execReserved8toF op s

end Sys2Proof.Machine
end

