-- ==== Sys2Proof/Machine/HostStep.lean ====
section
/-! DEFINITION. The host agent's steps: one register access each (spec/20_memory.md R52 to R56), `poll`
(spec/30_encoding.md R75), and the reset input (spec/70_reset_and_hazards.md R220, R221). -/

namespace Sys2Proof.Machine

/-- R52: an access goes on only at a 4-byte-aligned offset inside the window; outside the window it faults, and a
misaligned one is refused. -/
def checkOffset (off : Nat) (next : Host.Outcome State Fault Refusal) : Host.Outcome State Fault Refusal :=
  if windowSize ≤ off then .fault (.outsideWindow off)
  else if off % 4 ≠ 0 then .refused (.busMisaligned off)
  else next

/-- R54: a host read returns a value and changes nothing else. -/
def State.hostRead (s : State) (off : Nat) : State := s.logRead off (s.engine.read off)

/-- R55: a host write; at CMD it presents a command word, which is decoded and performed in the same step (R25,
R160). -/
def State.hostWrite (s : State) (off : Nat) (v : Word) : Host.Outcome State Fault Refusal :=
  match registerAt off with
  | .cmd => Sys2Proof.Machine.exec (decode v) s
  | r => .next (s.setEngine (s.engine.writeRegister r v))

/-- The offset of STATUS (R51). -/
def statusOffset : Nat := 0x04

/-- R75: one read of `poll`. It stays the host's next action while the value read has BUSY = 1. -/
def State.hostPoll (s : State) (rest : List HostOp) : State :=
  if s.engine.status.getLsbD 0 then (s.setTodo (.poll :: rest)).hostRead statusOffset
  else (s.setTodo rest).hostRead statusOffset

/-- R220, R221: the engine's whole state is replaced, a running command abandoned. The host goes on with what it
has still to do, and keeps the values it has read (log 4). -/
def State.assertReset (s : State) : State := s.setEngine Engine.reset

/-- One host step: `op` is the host's next action and `rest` what follows it. -/
def State.hostStep (s : State) (op : HostOp) (rest : List HostOp) : Host.Outcome State Fault Refusal :=
  match op with
  | .rd off => checkOffset off (.next ((s.setTodo rest).hostRead off))
  | .wr off v => checkOffset off ((s.setTodo rest).hostWrite off v)
  | .poll => .next (s.hostPoll rest)
  | .nonWord off _ => .refused (.busNonWord off)
  | .reset => .next (s.setTodo rest).assertReset

end Sys2Proof.Machine
end

