-- ==== Sys2Proof/Machine/Sequencer.lean ====
section
/-! DEFINITION. The engine agent's steps (spec/43_compression.md R149, R150). Each is one step; no other engine
step exists. -/

namespace Sys2Proof.Machine

/-- R149, the round step, at a counter `t ≤ 63`: `W[t]` (for `t ≥ 16`), then the round, then `t <- t + 1`. -/
def Engine.roundStep (e : Engine) (ht : e.t.val < 64) : Engine :=
  let w := extendSchedule e.w e.t.val ht
  { e with w := w, vars := mixRound e.vars roundK[e.t.val] w[e.t.val], t := ⟨e.t.val + 1, by omega⟩ }

/-- R150, the feedback step: `H` gets its eight words at once, then either the next block is loaded from the new
`H` or the command ends. -/
def Engine.feedbackStep (e : Engine) : Engine :=
  let e' := { e with h := feedback e.h e.vars, pend := e.pend.tail }
  match e.pend.tail with
  | [] => { e' with phase := .idle, done := true }
  | b :: _ => e'.loadBlock b

/-- One engine step, enabled when `phase = RUN`: a round while `t ≤ 63`, the feedback at 64 (R26). -/
def Engine.step (e : Engine) : Engine :=
  if ht : e.t.val < 64 then e.roundStep ht else e.feedbackStep

/-- An engine left alone: a step while it runs, no step while it is idle (R59, R208). -/
def Engine.advance (e : Engine) : Engine :=
  match e.phase with
  | .idle => e
  | .run => e.step

/-- `n` engine steps with no host step between them. -/
def Engine.advanceN : Nat → Engine → Engine
  | 0, e => e
  | n + 1, e => Engine.advanceN n e.advance

end Sys2Proof.Machine
end

