-- ==== Sys2Proof/Machine/Turn.lean ====
section
/-! DEFINITION. Which agent moves next (spec/20_memory.md R59, spec/70_reset_and_hazards.md R228): the host alone
while the engine is idle, the engine alone while the host has nothing to do; while both can move, the order is free,
and an engine step comes after finitely many host steps. -/

namespace Sys2Proof.Machine

/-- How many host steps come before the next engine step, while `phase = RUN` and the host has something to do. -/
def Turns.wait (u : Turns) : Nat :=
  match u.waits with
  | [] => Config.freeWait u.drawn
  | n :: _ => n

/-- The interleaving after an engine step: the next number. -/
def Turns.afterEngine (u : Turns) : Turns :=
  match u.waits with
  | [] => { waits := [], drawn := u.drawn + 1 }
  | _ :: ns => { u with waits := ns }

/-- The interleaving with another number in place of the one that counts down now. -/
def Turns.setWait (u : Turns) (n : Nat) : Turns :=
  match u.waits with
  | [] => { waits := [n], drawn := u.drawn + 1 }
  | _ :: ns => { u with waits := n :: ns }

/-- Who moves next. -/
inductive Mover where
  /-- The engine: its next sequencer step. -/
  | engine
  /-- The host: its next action, and what follows it. -/
  | host (op : HostOp) (rest : List HostOp)
  /-- Nobody: the engine is idle, and the host has nothing to do. -/
  | nobody
deriving DecidableEq, Repr

/-- Who moves next in a state (R59). -/
def State.mover (s : State) : Mover :=
  match s.engine.phase, s.host.todo with
  | .idle, [] => .nobody
  | .idle, op :: rest => .host op rest
  | .run, [] => .engine
  | .run, op :: rest =>
    match s.turns.wait with
    | 0 => .engine
    | _ + 1 => .host op rest

/-- The interleaving's part of a host step: while `phase = RUN` it uses up one of the host steps that come before the
next engine step. -/
def State.countHostStep (s : State) : State :=
  match s.engine.phase with
  | .idle => s
  | .run => { s with turns := s.turns.setWait (s.turns.wait - 1) }

/-- One engine step (R149, R150). -/
def State.engineStep (s : State) : State :=
  { s with engine := s.engine.step, turns := s.turns.afterEngine }

/-- The interleaving's part of letting the host move next. -/
def State.letHostMove (s : State) : State :=
  match s.engine.phase with
  | .idle => s
  | .run => { s with turns := s.turns.setWait (s.turns.wait + 1) }

/-- The offset of CMD (R51). -/
def cmdOffset : Nat := 0x00

/-- The host's next action becomes the write of a command word to CMD, and the host moves next (log 1). -/
def State.presentCommand (s : State) (v : Word) : State :=
  (s.letHostMove).setTodo (.wr cmdOffset v :: s.host.todo)

end Sys2Proof.Machine
end

