-- ==== Sys2Proof/Machine/Step.lean ====
section
/-! DEFINITION. One step of the machine: one step of the host or one of the engine (spec/00_scope.md R5,
spec/20_memory.md R59). -/

namespace Sys2Proof.Machine

/-- One step. When nobody can move, the state stays as it is: an idle engine takes no step (R208, log 1). -/
def step (s : State) : Host.Outcome State Fault Refusal :=
  match s.mover with
  | .engine => .next s.engineStep
  | .host op rest => s.countHostStep.hostStep op rest
  | .nobody => .next s

/-- The state in which the very next step presents the command word `w mod 2^nbits` to the engine: the host's next
action is the write of that word to CMD (R70, log 1). -/
def State.withFetchWord (s : State) (nbits w : Nat) : State :=
  s.presentCommand (BitVec.ofNat 32 (w % 2 ^ nbits))

end Sys2Proof.Machine
end

