-- ==== Sys2Proof/Machine/Driver.lean ====
section
/-! DEFINITION. The host's part of hashing a message (outside the hardware): the split into chunks
(spec/42_padding.md R127), the procedure HashMessage and the digest's serialization (spec/44_commands.md R167,
R168). No step of the machine reads this file. -/

namespace Sys2Proof.Machine

/-- R127: `q = (n - 1) div 64`, the number of full chunks sent with COMPRESS. -/
def chunkCount (n : Nat) : Nat := (n - 1) / 64

/-- R127: `L = n - 64q`. -/
def lastLength (n : Nat) : Nat := n - 64 * chunkCount n

/-- R127: chunk `c_j` of a message. -/
def chunk (m : List Byte) (j : Nat) : List Byte := (m.drop (64 * j)).take 64

/-- R127: the tail `c_q`. -/
def lastChunk (m : List Byte) : List Byte := m.drop (64 * chunkCount m.length)

/-- R127: `Pad(m)`, for a message of at least one byte. -/
def padMessage (m : List Byte) : List (List Byte) :=
  (List.range (chunkCount m.length)).map (chunk m) ++
    padBlocks (lastChunk m) (lastLength m.length) (BitVec.ofNat 64 m.length)

/-- R167: `H_0 = IV`, `H_{k+1} = Compress(H_k, Pad(m)[k])`. -/
def digestOf (m : List Byte) : Digest := compressAll iv ((padMessage m).map toWords)

/-- R51: the offset of BLK`j`. -/
def blkOffset (j : Nat) : Nat := 0x40 + 4 * j

/-- R167: `wr BLK<w>` for the words of some bytes; a byte past their end "may be anything", here `filler`. -/
def writeBlkOps (filler : Byte) (bytes : List Byte) : List HostOp :=
  (List.range ((bytes.length + 3) / 4)).map fun w =>
    .wr (blkOffset w) (be32 (bytes.getD (4 * w) filler) (bytes.getD (4 * w + 1) filler)
      (bytes.getD (4 * w + 2) filler) (bytes.getD (4 * w + 3) filler))

/-- R76: the host write of a command. -/
def commandOp (v : Word) : HostOp := .wr 0x00 v

/-- R167, `HashMessage(m)`: the host's accesses, up to the reads of `STATUS` and `H` at the end. -/
def hashMessage (filler : Byte) (m : List Byte) : List HostOp :=
  [.poll, commandOp 0x00000001#32]
  ++ (List.range (chunkCount m.length)).flatMap (fun j =>
      writeBlkOps filler (chunk m j) ++ [.poll, commandOp 0x00000002#32])
  ++ writeBlkOps filler (lastChunk m)
  ++ [.wr 0x08 (BitVec.ofNat 32 m.length), .wr 0x0C (BitVec.ofNat 32 (m.length / 2 ^ 32)), .poll,
      commandOp (BitVec.ofNat 32 (lastLength m.length * 16 + 3)), .poll, .rd 0x04]
  ++ (List.range 8).map fun i => .rd (0x20 + 4 * i)

/-- R168: the 32 bytes of a digest, `D[4i + k] = H[i][31-8k : 24-8k]`. -/
def digestBytes (d : Digest) : List Byte :=
  d.toList.flatMap fun v => (List.range 4).map (wordByte v)

/-- One hexadecimal digit; the letter case is the host's convention (R168, log 14). -/
def hexDigit (upper : Bool) (d : BitVec 4) : Char :=
  if d.toNat < 10 then Char.ofNat (48 + d.toNat)
  else if upper then Char.ofNat (55 + d.toNat)
  else Char.ofNat (87 + d.toNat)

/-- R168, `hex8(x)`: the 8 hex digits of a word, most significant first, zero-padded. -/
def hex8 (upper : Bool) (v : Word) : List Char :=
  (List.range 8).map fun k => hexDigit upper (v.extractLsb' (28 - 4 * k) 4)

/-- R168, `HexDigest(H)`: 64 characters. -/
def hexDigest (upper : Bool) (d : Digest) : List Char := d.toList.flatMap (hex8 upper)

end Sys2Proof.Machine
end

