-- ==== Sys2Proof/Machine/Platform.lean ====
section
/-! DEFINITION. Several instances on one platform (spec/60_exceptions.md R206): each has its own window and its own
state, and they share only the constant ROM, which is a definition and no state. -/

namespace Sys2Proof.Machine

/-- The instances of a platform. -/
structure Platform where
  instances : List State
deriving DecidableEq, Repr

/-- Every instance right after reset. -/
def Platform.reset : Platform := { instances := List.replicate Config.nInstances State.reset }

/-- A step of instance `k`; no step where there is no such instance. -/
def Platform.stepAt (p : Platform) (k : Nat) : Host.Outcome Platform Fault Refusal :=
  match p.instances[k]? with
  | none => .next p
  | some s =>
    match Sys2Proof.Machine.step s with
    | .next s' => .next { p with instances := p.instances.set k s' }
    | .fault r => .fault r
    | .refused r => .refused r

/-- The address `MemRead` and `MemWrite` give the bus for an offset of instance `k` (spec/00_scope.md R10,
spec/20_memory.md R54, R55). -/
def busAddress (k off : Nat) : Nat := Config.base k + off

/-- The instance and the offset a bus address reaches, among the first `n` instances (R50). -/
def busTarget : Nat → Nat → Option (Nat × Nat)
  | 0, _ => none
  | n + 1, addr =>
    match busTarget n addr with
    | some hit => some hit
    | none => (offsetOf (Config.base n) addr).map fun off => (n, off)

end Sys2Proof.Machine
end

