-- ==== Sys2Proof/Safety.lean ====
section
/-! DEFINITION. What a good state and a good run are: the invariant of the engine, the host actions that are host
steps, and runs that the reset input does not cut short. -/

namespace Sys2Proof.Machine

/-- The working state holds the rounds done so far on block `b`, from the committed `H` (R148, R149): the variables
after `t` rounds, and the schedule's words written so far, the block's 16 and those of the rounds done. -/
structure Engine.Holds (e : Engine) (b : Block) : Prop where
  vars_eq : e.vars = rounds (schedule b) (Working.ofDigest e.h) e.t.val (by omega)
  w_eq : ∀ (j : Nat) (hj : j < 64), j < 16 ∨ j < e.t.val → e.w[j] = (schedule b)[j]

/-- The invariant of one engine: the error code is one that is produced (R191); at most two blocks are pending
(R20), none when idle; a running engine has a block at the head of `pend`, has DONE = 0 (R24, R166), and holds the
partial result of compressing that block. -/
structure Engine.Inv (e : Engine) : Prop where
  err_produced : e.err.toNat ≤ 4
  pend_bounded : e.pend.length ≤ 2
  idle_empty : e.phase = .idle → e.pend = []
  run_not_done : e.phase = .run → e.done = false
  run_holds : e.phase = .run → ∃ b rest, e.pend = b :: rest ∧ e.Holds b

/-- The invariant of the machine. -/
abbrev State.Inv (s : State) : Prop := s.engine.Inv

/-- A host action that is a step of the host agent (R52): a 32-bit access at an aligned offset inside the window, a
poll, or reset. -/
def HostOp.legal : HostOp → Bool
  | .rd off => decide (off < windowSize) && decide (off % 4 = 0)
  | .wr off _ => decide (off < windowSize) && decide (off % 4 = 0)
  | .poll => true
  | .nonWord _ _ => false
  | .reset => true

/-- Every action the host has still to do is a host step. -/
def State.legalTodo (s : State) : Prop := ∀ op ∈ s.host.todo, op.legal = true

/-- The reset input is not asserted in what the host side has still to do. -/
def State.noReset (s : State) : Prop := HostOp.reset ∉ s.host.todo

end Sys2Proof.Machine
end

