-- ==== Sys2Proof/Certificates/Slice0/Obligations.lean ====
section
/-! DEFINITION. The statements for the provers, each from the spec's rules. The namespace Sys2Proof.Statements
holds the pseudocode of the rules, written out again from the spec with plain records, so that a statement does not
rest on the model's own operations. -/

namespace Sys2Proof.Statements

open Sys2Proof.Machine

/-- R190, as written: the error code after `raise Error(code)`, with the code's number. -/
def raised (code : BitVec 4) (e : Engine) : Engine :=
  { e with err := if e.err = 0#4 then code else e.err }

/-- R163, R164 with R148, as written: the engine after the acceptance of a command with its blocks `bs`. R148's
pseudocode writes `W[0..15]` only; that `W[16..63]` keep their old values is the model's choice (log 11). -/
def accepted (bs : List Block) (e : Engine) : Engine :=
  { e with
    pend := bs
    phase := .run
    done := false
    t := 0
    vars := ⟨e.h[0], e.h[1], e.h[2], e.h[3], e.h[4], e.h[5], e.h[6], e.h[7]⟩
    w := Vector.ofFn fun i : Fin 64 =>
      if h : i.val < 16 then (bs.headD (Vector.replicate 16 0#32))[i.val] else e.w[i.val] }

/-- R164, as written: the blocks of PAD_LAST. -/
def paddedBlocks (tailLen : Nat) (e : Engine) : List Block :=
  (padBlocks ((List.ofFn (blkByte e.blk)).take tailLen) tailLen e.msgLen).map toWords

/-- R160, as written: `Command(v)`. -/
def commandAsWritten (v : Word) (e : Engine) : Engine :=
  let op := v.toNat % 16
  let tailLen := v.toNat / 16 % 128
  if op = 0x0 then e
  else if e.phase = .run then raised 0x1#4 e
  else if 0x4 ≤ op then raised 0x2#4 e
  else if op = 0x1 then { e with h := iv, err := 0#4, done := true }
  else if e.err ≠ 0#4 then e
  else if op = 0x2 then accepted [e.blk] e
  else if e.msgLen = 0#64 then raised 0x3#4 e
  else if 64 < tailLen then raised 0x4#4 e
  else accepted (paddedBlocks tailLen e) e

/-- R51, as written: what a host read returns. -/
def windowRead (e : Engine) (off : Nat) : Word :=
  if off = 0x00 then 0#32
  else if off = 0x04 then
    0#24 ++ e.err ++ 0#2 ++ (if e.done then 1#1 else 0#1) ++ (if e.phase = .run then 1#1 else 0#1)
  else if off = 0x08 then BitVec.ofNat 32 e.msgLen.toNat
  else if off = 0x0C then BitVec.ofNat 32 (e.msgLen.toNat / 2 ^ 32)
  else if hH : 0x20 ≤ off ∧ off < 0x40 then e.h[(off - 0x20) / 4]'(by omega)
  else if hB : 0x40 ≤ off ∧ off < 0x80 then e.blk[(off - 0x40) / 4]'(by omega)
  else 0#32

/-- R55, as written: what a host write does, with R160 at CMD. -/
def windowWrite (e : Engine) (off : Nat) (v : Word) : Engine :=
  if off = 0x00 then commandAsWritten v e
  else if off = 0x04 then e
  else if off = 0x08 then
    { e with msgLen := BitVec.ofNat 64 (e.msgLen.toNat / 2 ^ 32 * 2 ^ 32 + v.toNat) }
  else if off = 0x0C then
    { e with msgLen := BitVec.ofNat 64 (v.toNat * 2 ^ 32 + e.msgLen.toNat % 2 ^ 32) }
  else if hH : 0x20 ≤ off ∧ off < 0x40 then
    if e.phase = .run then raised 0x1#4 e else { e with h := e.h.set ((off - 0x20) / 4) v (by omega) }
  else if hB : 0x40 ≤ off ∧ off < 0x80 then { e with blk := e.blk.set ((off - 0x40) / 4) v (by omega) }
  else e

/-- The state in which the host's action `op :: rest` has been taken from the host's list: what a host step starts
from. -/
def taken (s : State) (rest : List HostOp) : State := s.countHostStep.setTodo rest

/-- R166, as written: `STATUS.DONE` after the step that a state takes. -/
def doneAfter (s : State) : Bool :=
  match s.mover with
  | .nobody => s.engine.done
  | .engine => if s.engine.t.val = 64 ∧ s.engine.pend.tail = [] then true else s.engine.done
  | .host .reset _ => false
  | .host (.wr off v) _ =>
    let op := v.toNat % 16
    if off ≠ 0x00 ∨ s.engine.phase = .run then s.engine.done
    else if op = 0x1 then true
    else if s.engine.err = 0#4 ∧
        (op = 0x2 ∨ (op = 0x3 ∧ s.engine.msgLen ≠ 0#64 ∧ v.toNat / 16 % 128 ≤ 64)) then false
    else s.engine.done
  | .host (.rd _) _ => s.engine.done
  | .host .poll _ => s.engine.done
  | .host (.nonWord _ _) _ => s.engine.done

/-- Two engines that agree but for hidden state no rule reads (R20): while idle, `t`, the working variables and the
schedule; while running, the schedule's words not written yet. -/
structure SameVisible (e u : Engine) : Prop where
  h_eq : e.h = u.h
  blk_eq : e.blk = u.blk
  msgLen_eq : e.msgLen = u.msgLen
  err_eq : e.err = u.err
  done_eq : e.done = u.done
  phase_eq : e.phase = u.phase
  pend_eq : e.pend = u.pend
  t_eq : e.phase = .run → e.t = u.t
  vars_eq : e.phase = .run → e.vars = u.vars
  w_eq : e.phase = .run → ∀ (j : Nat) (hj : j < 64), j < 16 ∨ j < e.t.val → e.w[j] = u.w[j]

/-- Two outcomes of runs that agree in all a host can see: the same values read, the same stop. -/
def SameOutcome (x y : Host.Outcome State Fault Refusal) : Prop :=
  match x, y with
  | .next s, .next u => SameVisible s.engine u.engine ∧ s.host = u.host ∧ s.turns = u.turns
  | .fault r, .fault r' => r = r'
  | .refused r, .refused r' => r = r'
  | _, _ => False

/-- R167: a command written to CMD, and the engine left alone until it has finished (at most 130 engine steps,
R229). -/
def afterCommand (i : Instr) (s : State) : State :=
  match exec i s with
  | .next s' => { s' with engine := s'.engine.advanceN 130 }
  | .fault _ => s
  | .refused _ => s

/-- R167: the host's 16 writes of the block buffer. -/
def withBlk (b : Block) (s : State) : State := { s with engine := { s.engine with blk := b } }

/-- R167: the host's two writes of MSGLEN. -/
def withMsgLen (n : Nat) (s : State) : State :=
  { s with engine := { s.engine with msgLen := BitVec.ofNat 64 n } }

/-- R167: the commands of HashMessage in their order, the block buffer written before each; `junk` are the bytes
past the tail, which "may be anything". -/
def hashByCommands (m junk : List Byte) (s : State) : State :=
  let started := afterCommand .init s
  let chunksDone := (List.range (chunkCount m.length)).foldl
    (fun u j => afterCommand .compress (withBlk (toWords (chunk m j)) u)) started
  afterCommand (.padLast (lastLength m.length))
    (withMsgLen m.length (withBlk (toWords (lastChunk m ++ junk)) chunksDone))

/-- The first 64 primes (spec/40_constants.md R90, R91). -/
def primes : List Nat :=
  [2, 3, 5, 7, 11, 13, 17, 19, 23, 29, 31, 37, 41, 43, 47, 53]
  ++ [59, 61, 67, 71, 73, 79, 83, 89, 97, 101, 103, 107, 109, 113, 127, 131]
  ++ [137, 139, 149, 151, 157, 163, 167, 173, 179, 181, 191, 193, 197, 199, 211, 223]
  ++ [227, 229, 233, 239, 241, 251, 257, 263, 269, 271, 277, 281, 283, 293, 307, 311]

end Sys2Proof.Statements

section

open Sys2Proof Sys2Proof.Machine Sys2Proof.Statements

/-! ### Encoding -/

/-- Words from the spec's own examples (R72, R76, V27) decode to the commands they stand for. -/
def Obligations.SampleWordsDecodeAsWritten : Prop :=
  decode 0x00000000#32 = .nop ∧ decode 0x000007F0#32 = .nop ∧ decode 0x00000001#32 = .init ∧
  decode 0x00000002#32 = .compress ∧ decode 0x00000022#32 = .compress ∧ decode 0x00000033#32 = .padLast 3 ∧
  decode 0x00000833#32 = .padLast 3 ∧ decode 0x00000383#32 = .padLast 56 ∧ decode 0x00000403#32 = .padLast 64 ∧
  decode 0x000007F3#32 = .padLast 127 ∧ decode 0x00000007#32 = .reserved4to7 7 ∧
  decode 0xFFFFFFF4#32 = .reserved4to7 4 ∧ decode 0x00000008#32 = .reserved8toF 8

/-- Every well-formed command comes back from its word, whatever stands in the ignored bits 31:11 (R70, R72). -/
def Obligations.DecodeInvertsEncodeWhateverIsIgnored : Prop :=
  ∀ (i : Instr) (ignored : BitVec 21), i.WF → decode (encodeWith ignored i) = i

/-- Every 32-bit word selects exactly one row of the opcode table, that of the command it decodes to (R71), and that
command is well-formed. -/
def Obligations.EveryWordSelectsExactlyOneRow : Prop :=
  ∀ v : Word, tableRows.filter (fun r => r.selects v) = [rowOf (decode v)] ∧ (decode v).WF

/-- Bits 31:11, and TAIL_LEN of every opcode but PAD_LAST, are ignored (R74). -/
def Obligations.IgnoredBitsDoNotMatter : Prop :=
  ∀ v v' : Word, v.toNat % 16 = v'.toNat % 16 →
    (v.toNat % 16 = 3 → v.toNat / 16 % 128 = v'.toNat / 16 % 128) → decode v = decode v'

/-! ### Commands -/

/-- R160: a command word does what the pseudocode of `Command(v)` does, its checks in that order. Where a command is
accepted, the equality of the whole engine also says that `W[16..63]` keep their old values at the block load: that
clause is the model's choice (log 11, DEDUCED), not the spec's. -/
def Obligations.CommandFollowsTheCheckOrder : Prop :=
  ∀ (v : Word) (s : State),
    exec (decode v) s = .next { s with engine := commandAsWritten v s.engine }

/-- R161: every word with OP = 0x0 is NOP, and NOP changes nothing, in any phase and with any error. -/
def Obligations.NopChangesNothing : Prop :=
  ∀ (v : Word) (s : State), v.toNat % 16 = 0 → decode v = .nop ∧ exec .nop s = .next s

/-- R162: INIT, idle, with an error or without, loads IV, clears ERR, sets DONE, and leaves STATUS at 2; busy, it is
dropped with ERR_BUSY; and it is the one command (NOP, which does nothing, aside) performed while an error is
recorded. -/
def Obligations.InitLoadsTheInitialDigest : Prop :=
  ∀ (v : Word) (s : State), v.toNat % 16 = 1 →
    decode v = .init ∧
    (s.engine.phase = .idle →
      exec .init s = .next { s with engine := { s.engine with h := iv, err := 0#4, done := true } } ∧
      windowRead { s.engine with h := iv, err := 0#4, done := true } 0x04 = 0x00000002#32) ∧
    (s.engine.phase = .run → exec .init s = .next { s with engine := raised 0x1#4 s.engine }) ∧
    (s.engine.phase = .idle → s.engine.err ≠ 0#4 → ∀ i, i ≠ .init → exec i s = .next s)

/-- R163: the acceptance of COMPRESS, idle and without an error: a copy of BLK pending, RUN, DONE 0, the block
loaded; nothing else that R163 and R148 name changes. That `W[16..63]` keep their old values at the load is the
model's choice (log 11, DEDUCED), not the spec's. -/
def Obligations.CompressIsAccepted : Prop :=
  ∀ s : State, s.engine.phase = .idle → s.engine.err = 0#4 →
    exec .compress s = .next { s with engine := accepted [s.engine.blk] s.engine }

/-- R164: the acceptance of PAD_LAST, idle, without an error, with a length and `L ≤ 64`: the padded blocks pending,
RUN, DONE 0, the first block loaded; nothing else that R164 and R148 name changes. That `W[16..63]` keep their old
values at the load is the model's choice (log 11, DEDUCED), not the spec's. -/
def Obligations.PadLastIsAccepted : Prop :=
  ∀ (s : State) (tailLen : Nat), s.engine.phase = .idle → s.engine.err = 0#4 → s.engine.msgLen ≠ 0#64 →
    tailLen ≤ 64 →
    exec (.padLast tailLen) s = .next { s with engine := accepted (paddedBlocks tailLen s.engine) s.engine }

/-- R194: PAD_LAST with MSGLEN = 0 raises ERR_EMPTY and changes nothing else, whatever its tail length; and no other
command raises it. -/
def Obligations.PadLastOfEmptyMessageRaisesEmpty : Prop :=
  (∀ (s : State) (tailLen : Nat), s.engine.phase = .idle → s.engine.err = 0#4 → s.engine.msgLen = 0#64 →
    exec (.padLast tailLen) s = .next { s with engine := { s.engine with err := 0x3#4 } }) ∧
  ∀ (i : Instr) (s s' : State), exec i s = .next s' → s.engine.err = 0#4 → s'.engine.err = 0x3#4 →
    s.engine.phase = .idle ∧ s.engine.msgLen = 0#64 ∧ ∃ tailLen, i = .padLast tailLen

/-- R195: PAD_LAST with TAIL_LEN in 65 to 127 raises ERR_TAIL and changes nothing else. -/
def Obligations.PadLastOfLongTailRaisesTail : Prop :=
  ∀ (s : State) (tailLen : Nat), s.engine.phase = .idle → s.engine.err = 0#4 → s.engine.msgLen ≠ 0#64 →
    65 ≤ tailLen → tailLen ≤ 127 →
    exec (.padLast tailLen) s = .next { s with engine := { s.engine with err := 0x4#4 } }

/-- R165: a word with a reserved opcode decodes to a reserved command, which raises ERR_BADOP when idle and ERR_BUSY
when busy, recorded only if no error was; nothing else changes. -/
def Obligations.ReservedOpcodesRaiseBadOp : Prop :=
  (∀ v : Word, 4 ≤ v.toNat % 16 →
    decode v = .reserved4to7 (v.toNat % 16) ∨ decode v = .reserved8toF (v.toNat % 16)) ∧
  ∀ (s : State) (op : Nat),
    exec (.reserved4to7 op) s =
      .next { s with engine := raised (if s.engine.phase = .idle then 0x2#4 else 0x1#4) s.engine } ∧
    exec (.reserved8toF op) s =
      .next { s with engine := raised (if s.engine.phase = .idle then 0x2#4 else 0x1#4) s.engine }

/-- R192: while the engine runs, a write to CMD with OP ≠ 0 and a write to an H offset are dropped with ERR_BUSY,
and nothing else changes; the engine's further steps are those it would have taken without the write. -/
def Obligations.WritesWhileBusyRaiseBusy : Prop :=
  ∀ (s : State) (v : Word), s.engine.phase = .run →
    (v.toNat % 16 ≠ 0 → s.hostWrite 0x00 v = .next { s with engine := raised 0x1#4 s.engine }) ∧
    (∀ i : Nat, i < 8 → s.hostWrite (0x20 + 4 * i) v = .next { s with engine := raised 0x1#4 s.engine }) ∧
    (∀ n : Nat, (raised 0x1#4 s.engine).advanceN n = raised 0x1#4 (s.engine.advanceN n))

/-- R196: with an error recorded and the engine idle, COMPRESS and PAD_LAST change nothing, and a reserved opcode
records no new code. -/
def Obligations.StickyErrorDropsLaterCommands : Prop :=
  ∀ s : State, s.engine.phase = .idle → s.engine.err ≠ 0#4 →
    exec .compress s = .next s ∧ (∀ tailLen, exec (.padLast tailLen) s = .next s) ∧
    (∀ op, exec (.reserved4to7 op) s = .next s ∧ exec (.reserved8toF op) s = .next s)

/-- R190, R191: `raise Error(code)` records the code if none is, and changes nothing else. -/
def Obligations.RaiseRecordsTheFirstError : Prop :=
  ∀ e : Engine, e.raise .busy = raised 0x1#4 e ∧ e.raise .badOp = raised 0x2#4 e ∧
    e.raise .empty = raised 0x3#4 e ∧ e.raise .tail = raised 0x4#4 e

/-- R170: no command and no engine step writes BLK or MSGLEN; a command also leaves the host and the interleaving. -/
def Obligations.EngineNeverWritesBlkOrMsgLen : Prop :=
  (∀ (i : Instr) (s s' : State), exec i s = .next s' →
    s'.engine.blk = s.engine.blk ∧ s'.engine.msgLen = s.engine.msgLen ∧ s'.host = s.host ∧ s'.turns = s.turns) ∧
  ∀ (n : Nat) (e : Engine), (e.advanceN n).blk = e.blk ∧ (e.advanceN n).msgLen = e.msgLen

/-- Every command of the table answers a next state in every state: no command of SHA256CE stops the machine (R198,
R203). -/
def Obligations.NoCommandStopsTheMachine : Prop :=
  ∀ (i : Instr) (s : State), ∃ s', exec i s = .next s' ∧ (i ≠ .init → s'.engine.h = s.engine.h)

/-! ### What changes digest, DONE and ERR -/

/-- R21: the digest state changes only at a feedback step, by INIT, by a host write to H (both while idle), or by
reset. -/
def Obligations.DigestChangesOnlyWhereAllowed : Prop :=
  ∀ s s' : State, step s = .next s' → s'.engine.h ≠ s.engine.h →
    (s.mover = .engine ∧ s.engine.phase = .run ∧ s.engine.t.val = 64 ∧
      s'.engine.h = feedback s.engine.h s.engine.vars) ∨
    (s.engine.phase = .idle ∧ ∃ v rest, s.mover = .host (.wr 0x00 v) rest ∧ v.toNat % 16 = 1 ∧ s'.engine.h = iv) ∨
    (s.engine.phase = .idle ∧ ∃ (i : Fin 8) (v : Word) (rest : List HostOp),
      s.mover = .host (.wr (0x20 + 4 * i.val) v) rest ∧ s'.engine.h = s.engine.h.set i v) ∨
    (∃ rest, s.mover = .host .reset rest ∧ s'.engine.h = iv)

/-- R166: DONE after any step. That a feedback with nothing pending, a state no run reaches, sets DONE too is the model's
choice (log 15, DESIGN CHOICE), not the spec's. -/
def Obligations.DoneFollowsItsRule : Prop :=
  ∀ s s' : State, step s = .next s' → s'.engine.done = doneAfter s

/-- R197 with R196: a recorded error stays, but for INIT (while idle) and reset, which both clear it. -/
def Obligations.ErrorIsClearedOnlyByInitAndReset : Prop :=
  ∀ s s' : State, step s = .next s' →
    (s.engine.err ≠ 0#4 → s'.engine.err ≠ s.engine.err →
      s'.engine.err = 0#4 ∧ ((s.engine.phase = .idle ∧ ∃ v rest, s.mover = .host (.wr 0x00 v) rest ∧ v.toNat % 16 = 1) ∨
        ∃ rest, s.mover = .host .reset rest)) ∧
    ((∃ v rest, s.mover = .host (.wr 0x00 v) rest ∧ v.toNat % 16 = 1) → s.engine.phase = .idle →
      s'.engine.err = 0#4) ∧
    ((∃ rest, s.mover = .host .reset rest) → s'.engine.err = 0#4)

/-! ### The register window -/

/-- R24, R30: the fields of STATUS. -/
def Obligations.StatusHasItsFields : Prop :=
  ∀ e : Engine,
    (e.status.getLsbD 0 = true ↔ e.phase = .run) ∧ e.status.getLsbD 1 = e.done ∧
    e.status.extractLsb' 2 2 = 0#2 ∧ e.status.extractLsb' 4 4 = e.err ∧ e.status.extractLsb' 8 24 = 0#24

/-- R54: a host read at an aligned offset of the window returns what R51 gives, and changes no state of the
engine. -/
def Obligations.HostReadReturnsAndChangesNothing : Prop :=
  ∀ (s : State) (off : Nat) (rest : List HostOp), s.mover = .host (.rd off) rest → off < 256 → off % 4 = 0 →
    step s = .next { taken s rest with
      host := { todo := rest, reads := (off, windowRead s.engine off) :: s.host.reads } } ∧
    (taken s rest).engine = s.engine

/-- R55: a host write at an aligned offset of the window does what the rule's cases give; only the engine's state
changes. At CMD, where a command is accepted, the equality of the whole engine also says that `W[16..63]` keep their
old values at the block load: that clause is the model's choice (log 11, DEDUCED), not the spec's. -/
def Obligations.HostWriteDoesItsCase : Prop :=
  ∀ (s : State) (off : Nat) (v : Word) (rest : List HostOp), s.mover = .host (.wr off v) rest →
    off < 256 → off % 4 = 0 →
    step s = .next { taken s rest with engine := windowWrite s.engine off v } ∧
    (taken s rest).host = { todo := rest, reads := s.host.reads }

/-- R53: a reserved offset reads 0 and ignores writes, and raises no error. -/
def Obligations.ReservedOffsetsReadZeroAndIgnoreWrites : Prop :=
  ∀ (s : State) (off : Nat) (v : Word), off % 4 = 0 → (0x10 ≤ off ∧ off ≤ 0x1C) ∨ (0x80 ≤ off ∧ off ≤ 0xFC) →
    s.engine.read off = 0#32 ∧ s.hostWrite off v = .next s

/-- R52: an access of another width, or at a misaligned offset inside the window, is refused. -/
def Obligations.OtherWidthsAndMisalignedAreRefused : Prop :=
  ∀ (s : State) (off : Nat) (rest : List HostOp),
    (∀ width, s.mover = .host (.nonWord off width) rest → step s = .refused (.busNonWord off)) ∧
    (off < 256 → off % 4 ≠ 0 →
      (s.mover = .host (.rd off) rest → step s = .refused (.busMisaligned off)) ∧
      (∀ v, s.mover = .host (.wr off v) rest → step s = .refused (.busMisaligned off)))

/-- The model's choice (log 7, from R50): an access outside the 256-byte window faults. -/
def Obligations.OutsideTheWindowFaults : Prop :=
  ∀ (s : State) (off : Nat) (rest : List HostOp), 256 ≤ off →
    (s.mover = .host (.rd off) rest → step s = .fault (.outsideWindow off)) ∧
    (∀ v, s.mover = .host (.wr off v) rest → step s = .fault (.outsideWindow off))

/-- R75: `poll` reads STATUS, and goes on exactly when the value read has BUSY = 0. -/
def Obligations.PollReadsStatusUntilNotBusy : Prop :=
  ∀ (s : State) (rest : List HostOp), s.mover = .host .poll rest →
    step s = .next { taken s rest with
      host := { todo := if s.engine.phase = .run then .poll :: rest else rest
                reads := (0x04, windowRead s.engine 0x04) :: s.host.reads } } ∧
    (taken s rest).engine = s.engine

/-- R51, R55, R56: after a write to BLK, to H (idle) or to a half of MSGLEN, that offset reads the value written, and
every other offset of the window reads as before. -/
def Obligations.WriteThenReadReturnsTheValue : Prop :=
  ∀ (s s' : State) (off : Nat) (v : Word), off % 4 = 0 →
    off = 0x08 ∨ off = 0x0C ∨ (0x20 ≤ off ∧ off < 0x40 ∧ s.engine.phase = .idle) ∨ (0x40 ≤ off ∧ off < 0x80) →
    s.hostWrite off v = .next s' →
    s'.engine.read off = v ∧
    ∀ a, a < 256 → a % 4 = 0 → a ≠ off → s'.engine.read a = s.engine.read a

/-! ### Steps -/

/-- When the host's next action is the write of a word to CMD, the step is `exec` of the command that word decodes
to, the action taken from the host's list (R25, R160, R55). The second clause is the model's own (log 1, DESIGN
CHOICE), from no rule of the spec: `withFetchWord` makes a word that action, from any state, and, while the engine
runs, the host step it adds to the interleaving's count is the one the step uses up. -/
def Obligations.StepRunsTheDecodedCommand : Prop :=
  (∀ (s : State) (v : Word) (rest : List HostOp), s.mover = .host (.wr 0x00 v) rest →
    step s = exec (decode v) (taken s rest) ∧ (taken s rest).engine = s.engine ∧
    (taken s rest).host = { s.host with todo := rest }) ∧
  ∀ (s : State) (w : Nat), w < 2 ^ 32 → ∃ u : State, step (s.withFetchWord 32 w) = exec (decode (BitVec.ofNat 32 w)) u ∧
    u.engine = s.engine ∧ u.host = s.host ∧ u.turns.wait = s.turns.wait ∧ (s.engine.phase = .idle → u = s)

/-- R59: the engine steps only while running, and leaves the host alone; the host's actions are taken in program
order, one a step (a poll that saw BUSY stays); when neither can move nothing changes. -/
def Obligations.StepsInterleaveHostAndEngine : Prop :=
  ∀ s s' : State, step s = .next s' →
    (s.engine.phase = .run ∧ s'.engine = s.engine.step ∧ s'.host = s.host) ∨
    (∃ op rest, s.host.todo = op :: rest ∧
      (s'.host.todo = rest ∨ (op = .poll ∧ s.engine.phase = .run ∧ s'.host.todo = s.host.todo))) ∨
    (s.engine.phase = .idle ∧ s.host.todo = [] ∧ s' = s)

/-- R59 leaves the order free: while the engine runs and the host has something to do, either may be the next to
move. The count that says which, `turns.waits`, and how it counts down are the model's choice of form (log 3, DESIGN
CHOICE): R59 has no count. An engine step comes when its number of host steps is used up. -/
def Obligations.EitherAgentMayMoveNext : Prop :=
  ∀ (s : State) (op : HostOp) (rest : List HostOp) (n : Nat) (ns : List Nat),
    s.engine.phase = .run → s.host.todo = op :: rest →
    { s with turns := { s.turns with waits := 0 :: ns } }.mover = .engine ∧
    { s with turns := { s.turns with waits := (n + 1) :: ns } }.mover = .host op rest ∧
    { s with turns := { s.turns with waits := (n + 1) :: ns } }.countHostStep.turns.wait = n

/-- R220, R221: the reset input gives every register that R20 gives a value its reset value, whatever ran, and leaves
all that is visible of the engine as the machine's own reset state has it. The clauses on the host are the model's
choice (log 4, DEDUCED), not the spec's: reset is taken from the host's list, and the host keeps its remaining
actions and what it has read. -/
def Obligations.ResetGivesTheResetValues : Prop :=
  ∀ (s : State) (rest : List HostOp), s.mover = .host .reset rest →
    ∃ s', step s = .next s' ∧
      s'.engine.h = iv ∧ (∀ j : Fin 16, s'.engine.blk[j] = 0#32) ∧ s'.engine.msgLen = 0#64 ∧
      windowRead s'.engine 0x04 = 0#32 ∧ s'.engine.phase = .idle ∧ s'.engine.pend = [] ∧ s'.host.todo = rest ∧
      s'.host.reads = s.host.reads ∧ SameVisible s'.engine State.reset.engine

/-! ### The engine -/

/-- R149, with R144 to R146 in plain words: the round step. -/
def Obligations.RoundStepDoesOneRound : Prop :=
  ∀ (e : Engine) (ht : e.t.val < 64),
    let w' : MsgSchedule := if h16 : 16 ≤ e.t.val then
        e.w.set e.t.val (gamma1 e.w[e.t.val - 2] + e.w[e.t.val - 7] + gamma0 e.w[e.t.val - 15] + e.w[e.t.val - 16])
      else e.w
    let t1 := e.vars.h + sigma1 e.vars.e + choose e.vars.e e.vars.f e.vars.g + roundK[e.t.val] + w'[e.t.val]
    let t2 := sigma0 e.vars.a + majority e.vars.a e.vars.b e.vars.c
    e.step = { e with
      w := w'
      vars := ⟨t1 + t2, e.vars.a, e.vars.b, e.vars.c, e.vars.d + t1, e.vars.e, e.vars.f, e.vars.g⟩
      t := ⟨e.t.val + 1, by omega⟩ }

/-- R150: the feedback step writes all of H at once, and either ends the command or loads the next block from the
new H. Two parts are the model's choice, not the spec's: that `W[16..63]` keep their old values at the load of the
next block (log 11, DEDUCED), and that a feedback with nothing pending, a state no run reaches, ends the command too
(log 15, DESIGN CHOICE). -/
def Obligations.FeedbackStepEndsOrLoadsNext : Prop :=
  ∀ e : Engine, e.t.val = 64 →
    let h' : Digest := #v[e.h[0] + e.vars.a, e.h[1] + e.vars.b, e.h[2] + e.vars.c, e.h[3] + e.vars.d,
      e.h[4] + e.vars.e, e.h[5] + e.vars.f, e.h[6] + e.vars.g, e.h[7] + e.vars.h]
    (e.pend.tail = [] → e.step = { e with h := h', pend := [], phase := .idle, done := true }) ∧
    (∀ b rest, e.pend.tail = b :: rest → e.step = { e with
      h := h'
      pend := b :: rest
      t := 0
      vars := ⟨h'[0], h'[1], h'[2], h'[3], h'[4], h'[5], h'[6], h'[7]⟩
      w := Vector.ofFn fun i : Fin 64 => if h : i.val < 16 then b[i.val] else e.w[i.val] })

/-- R163, R229: COMPRESS, idle and without an error, is accepted, runs for exactly 65 engine steps, and leaves
`H = Compress(H, BLK)`, DONE = 1, and ERR, BLK and MSGLEN as they were. -/
def Obligations.CompressFinishesWithItsDigest : Prop :=
  ∀ s : State, s.engine.phase = .idle → s.engine.err = 0#4 →
    ∃ t, exec .compress s = .next t ∧
      (∀ k, k < 65 → (t.engine.advanceN k).phase = .run ∧ (t.engine.advanceN k).h = s.engine.h ∧
        (t.engine.advanceN k).done = false) ∧
      (t.engine.advanceN 65).phase = .idle ∧ (t.engine.advanceN 65).h = compress s.engine.h s.engine.blk ∧
      (t.engine.advanceN 65).done = true ∧ (t.engine.advanceN 65).err = 0#4 ∧
      (t.engine.advanceN 65).blk = s.engine.blk ∧ (t.engine.advanceN 65).msgLen = s.engine.msgLen ∧
      (t.engine.advanceN 65).pend = []

/-- R164, R229: PAD_LAST, idle, without an error, with a length and `L ≤ 64`, is accepted, runs for 65 engine steps
when `L < 56`, else 130, and leaves H folded over its padded blocks, DONE = 1, and ERR, BLK and MSGLEN as they were;
meanwhile H is what it was, or the first block's result. -/
def Obligations.PadLastFinishesWithItsDigest : Prop :=
  ∀ (s : State) (tailLen : Nat), s.engine.phase = .idle → s.engine.err = 0#4 → s.engine.msgLen ≠ 0#64 →
    tailLen ≤ 64 →
    let bs := paddedBlocks tailLen s.engine
    let n := if tailLen < 56 then 65 else 130
    ∃ t, exec (.padLast tailLen) s = .next t ∧
      (∀ k, k < n → (t.engine.advanceN k).phase = .run ∧ (t.engine.advanceN k).done = false ∧
        ((k < 65 ∧ (t.engine.advanceN k).h = s.engine.h) ∨
          (65 ≤ k ∧ ∃ b, bs.head? = some b ∧ (t.engine.advanceN k).h = compress s.engine.h b))) ∧
      (t.engine.advanceN n).phase = .idle ∧ (t.engine.advanceN n).h = bs.foldl compress s.engine.h ∧
      (t.engine.advanceN n).done = true ∧ (t.engine.advanceN n).err = 0#4 ∧
      (t.engine.advanceN n).blk = s.engine.blk ∧ (t.engine.advanceN n).msgLen = s.engine.msgLen ∧
      (t.engine.advanceN n).pend = []

/-- The state after reset satisfies the invariant. -/
def Obligations.ResetMeetsTheInvariant : Prop := State.reset.Inv

/-- Every step keeps the invariant: the error code is one that is produced, at most two blocks are pending and none
when idle, DONE = 0 while running, and a running engine holds exactly the rounds done so far on its block from the
committed H. -/
def Obligations.EveryStepKeepsTheInvariant : Prop :=
  ∀ s s' : State, s.Inv → step s = .next s' → s'.Inv

/-- R151: whatever host steps fall between the engine's steps (reset aside), H keeps its value until the block at the
head of `pend` is done, and is then `Compress` of that value and that block. -/
def Obligations.BlockIsCompressedWhateverTheHostDoes : Prop :=
  ∀ (s s' : State) (b : Block) (rest : List Block) (n : Nat), s.Inv → s.noReset → s.engine.phase = .run →
    s.engine.pend = b :: rest → core.run n s = .next s' →
    (∀ k u, k < n → core.run k s = .next u → u.engine.pend = b :: rest) →
    (s'.engine.pend = b :: rest ∧ s'.engine.h = s.engine.h ∧ s'.engine.phase = .run) ∨
    (s'.engine.pend = rest ∧ s'.engine.h = compress s.engine.h b ∧
      (s'.engine.phase = .idle ↔ rest = []))

/-- R228: a running engine becomes idle after finitely many steps, whatever the interleaving and whatever host
accesses stand in the host's list. -/
def Obligations.RunningCommandFinishes : Prop :=
  ∀ s : State, s.engine.phase = .run → s.legalTodo → ∃ n s', core.run n s = .next s' ∧ s'.engine.phase = .idle

/-- R20: the values that `t`, the working variables and the schedule hold while idle (and the schedule's words not
written yet while running) are never observable: states that differ in them alone run alike, whatever the host does,
and the host reads the same values. -/
def Obligations.HiddenStateIsNeverObserved : Prop :=
  ∀ (s u : State) (n : Nat), SameVisible s.engine u.engine → s.host = u.host → s.turns = u.turns →
    SameOutcome (core.run n s) (core.run n u)

/-- R206: a step of one instance changes no other, and depends on no other. -/
def Obligations.InstancesAreIndependent : Prop :=
  ∀ (p p' : Platform) (k : Nat), p.stepAt k = .next p' →
    p'.instances.length = p.instances.length ∧ (∀ j, j ≠ k → p'.instances[j]? = p.instances[j]?) ∧
    ∀ s, p.instances[k]? = some s → ∃ s', step s = .next s' ∧ p'.instances[k]? = some s'

/-! ### Padding -/

/-- R121: the tail is the first L bytes of the block buffer, and the other bytes do not matter to PAD_LAST. -/
def Obligations.BytesPastTheTailDoNotMatter : Prop :=
  ∀ (blk blk' : Block) (tailLen : Nat) (n : BitVec 64), tailLen ≤ 64 →
    (∀ k : Fin 64, k.val < tailLen → blkByte blk k = blkByte blk' k) →
    padLastBlocks blk tailLen n = padLastBlocks blk' tailLen n ∧
    (tailBytes blk tailLen).length = tailLen ∧
    ∀ k : Fin 64, k.val < tailLen → (tailBytes blk tailLen)[k.val]? = some (blkByte blk k)

/-- R122: the last block's words 14 and 15 are the two halves of `8 * MSGLEN mod 2^64`, the high half first. -/
def Obligations.TrailerFillsTheLastTwoWords : Prop :=
  ∀ (blk : Block) (tailLen : Nat) (n : BitVec 64) (last : Block), tailLen ≤ 64 →
    (padLastBlocks blk tailLen n).getLast? = some last →
    last[14].toNat = 8 * n.toNat % 2 ^ 64 / 2 ^ 32 ∧ last[15].toNat = 8 * n.toNat % 2 ^ 32

/-- R123 to R126: the padded tail is one block for `L < 56`, else two, each of 64 bytes, and the bytes are the tail,
0x80, zeros and the trailer. -/
def Obligations.PaddedTailHasItsLayout : Prop :=
  ∀ (tail : List Byte) (n : BitVec 64), tail.length ≤ 64 →
    (padBlocks tail tail.length n).length = (if tail.length < 56 then 1 else 2) ∧
    (∀ b ∈ padBlocks tail tail.length n, b.length = 64) ∧
    (padBlocks tail tail.length n).flatten =
      tail ++ [0x80#8] ++ List.replicate ((if tail.length < 56 then 55 else 119) - tail.length) 0x00#8 ++ trailer n

/-- R128: every block of a padded message has 64 bytes; together they have `64 * ceil((n+9)/64)`; they are the
message, 0x80, zeros, and the trailer in the last 8 bytes. -/
def Obligations.PaddedMessageHasItsLayout : Prop :=
  ∀ m : List Byte, 1 ≤ m.length →
    (∀ b ∈ padMessage m, b.length = 64) ∧
    (padMessage m).flatten.length = 64 * ((m.length + 9 + 63) / 64) ∧
    ∃ k, (padMessage m).flatten =
      m ++ [0x80#8] ++ List.replicate k 0x00#8 ++ trailer (BitVec.ofNat 64 m.length)

/-- R169: PAD_LAST 64 on a chunk, or COMPRESS on it and then PAD_LAST 0 (whatever the block buffer holds by then),
leave the same digest. -/
def Obligations.FinalSplitsAreEquivalent : Prop :=
  ∀ (d : Digest) (blk blk' : Block) (n : BitVec 64),
    compressAll d (padLastBlocks blk 64 n) = compressAll (compress d blk) (padLastBlocks blk' 0 n)

/-- R58: byte `k` of the block buffer is bits `31 - 8*(k mod 4)` down of word `k div 4`, and a word is `BE32` of its
four bytes. -/
def Obligations.BlockBytesAreBigEndian : Prop :=
  ∀ blk : Block,
    (∀ k : Fin 64, (blkByte blk k).toNat = (blk[k.val / 4]'(by omega)).toNat / 2 ^ (24 - 8 * (k.val % 4)) % 256) ∧
    (∀ (j : Nat) (hj : j < 16), blk[j] = be32 (blkByte blk ⟨4 * j, by omega⟩) (blkByte blk ⟨4 * j + 1, by omega⟩)
      (blkByte blk ⟨4 * j + 2, by omega⟩) (blkByte blk ⟨4 * j + 3, by omega⟩)) ∧
    toWords (tailBytes blk 64) = blk

/-! ### The compression function and its parts -/

/-- R100: bit `i` of a rotation is bit `(i + n) mod 32` of the operand. -/
def Obligations.RotateRightMovesEachBit : Prop :=
  ∀ (x : Word) (n i : Nat), i < 32 → (rotateRight x n).getLsbD i = x.getLsbD ((i + n % 32) % 32)

/-- R101, R102, R103: the bits of `shiftRight`, `choose` and `majority`. -/
def Obligations.ShiftChooseMajorityBits : Prop :=
  ∀ (x y z : Word) (n : Fin 32) (i : Nat), i < 32 →
    (shiftRight x n).getLsbD i = (if i + n.val ≤ 31 then x.getLsbD (i + n.val) else false) ∧
    (choose x y z).getLsbD i = (if x.getLsbD i then y.getLsbD i else z.getLsbD i) ∧
    ((majority x y z).getLsbD i = true ↔
      (x.getLsbD i = true ∧ y.getLsbD i = true) ∨ (x.getLsbD i = true ∧ z.getLsbD i = true) ∨
        (y.getLsbD i = true ∧ z.getLsbD i = true))

/-- R104 to R107: each bit of the round and schedule functions is the exclusive or of three bits of the operand, the
third of the schedule functions absent where the shift has filled with zero. -/
def Obligations.SigmaGammaBits : Prop :=
  ∀ (x : Word) (i : Nat), i < 32 →
    let bit := fun k => x.getLsbD ((i + k) % 32)
    (sigma0 x).getLsbD i = ((bit 2 ^^ bit 13) ^^ bit 22) ∧
    (sigma1 x).getLsbD i = ((bit 6 ^^ bit 11) ^^ bit 25) ∧
    (gamma0 x).getLsbD i = ((bit 7 ^^ bit 18) ^^ (if i + 3 ≤ 31 then bit 3 else false)) ∧
    (gamma1 x).getLsbD i = ((bit 17 ^^ bit 19) ^^ (if i + 10 ≤ 31 then bit 10 else false))

/-- R108: the sum of several words is the exact sum modulo 2^32. -/
def Obligations.WordSumIsExactSumModulo : Prop :=
  ∀ (x : Word) (xs : List Word), (addWords x xs).toNat = (x.toNat + (xs.map BitVec.toNat).sum) % 2 ^ 32

/-- R141, R142: the schedule's first 16 words are the block's, and each later one is the recurrence. -/
def Obligations.ScheduleFollowsItsRecurrence : Prop :=
  ∀ b : Block,
    (∀ (t : Nat) (ht : t < 16), (schedule b)[t] = b[t]) ∧
    ∀ (t : Nat) (ht : t < 64) (h16 : 16 ≤ t), (schedule b)[t] =
      gamma1 (schedule b)[t - 2] + (schedule b)[t - 7] + gamma0 (schedule b)[t - 15] + (schedule b)[t - 16]

/-- R90, R91: each constant of the ROM is the first 32 bits of the fractional part of a prime's square root (IV) or
cube root (K): with some integer part `a`, `a * 2^32 + constant` is the root times 2^32, rounded down. -/
def Obligations.RomConstantsAreRootFractions : Prop :=
  (∀ i : Fin 8, ∃ a, a < 5 ∧ (a * 2 ^ 32 + iv[i].toNat) ^ 2 ≤ primes.getD i.val 0 * 2 ^ 64 ∧
    primes.getD i.val 0 * 2 ^ 64 < (a * 2 ^ 32 + iv[i].toNat + 1) ^ 2) ∧
  (∀ t : Fin 64, ∃ a, a < 7 ∧ (a * 2 ^ 32 + roundK[t].toNat) ^ 3 ≤ primes.getD t.val 0 * 2 ^ 96 ∧
    primes.getD t.val 0 * 2 ^ 96 < (a * 2 ^ 32 + roundK[t].toNat + 1) ^ 3)

/-- R168: the digest is 32 bytes, word by word, most significant byte first, and its hexadecimal form has 64
digits. -/
def Obligations.DigestIsSerializedBigEndian : Prop :=
  ∀ (d : Digest) (upper : Bool),
    (digestBytes d).length = 32 ∧ (hexDigest upper d).length = 64 ∧
    (∀ (i : Fin 8) (k : Fin 4), (digestBytes d)[4 * i.val + k.val]? =
      some (BitVec.ofNat 8 (d[i].toNat / 2 ^ (24 - 8 * k.val)))) ∧
    (∀ (i j : Fin 8), (hexDigest upper d)[8 * i.val + j.val]? =
      some (hexDigit upper (BitVec.ofNat 4 (d[i].toNat / 2 ^ (28 - 4 * j.val)))))

/-- R167: the commands of HashMessage, each after the host's writes of its operands and each run to its end, leave
the compression function folded over the padded message from IV, with no error and DONE = 1. -/
def Obligations.HashCommandsFoldThePaddedMessage : Prop :=
  ∀ (m junk : List Byte) (s : State), 1 ≤ m.length → m.length < 2 ^ 61 → s.engine.phase = .idle →
    (hashByCommands m junk s).engine.h = digestOf m ∧ (hashByCommands m junk s).engine.err = 0#4 ∧
    (hashByCommands m junk s).engine.done = true ∧ (hashByCommands m junk s).engine.phase = .idle

end
end

