-- ==== Sys2Proof/Laws/State.lean ====
section
/-! SUPPORT. One small lemma per field per update of the state, so that no later proof unfolds a record update. -/

namespace Sys2Proof.Machine

/-! Errors (R190, R197). -/

@[simp] theorem Engine.raise_h (e : Engine) (c : ErrCode) : (e.raise c).h = e.h := by unfold Engine.raise; split <;> rfl
@[simp] theorem Engine.raise_blk (e : Engine) (c : ErrCode) : (e.raise c).blk = e.blk := by unfold Engine.raise; split <;> rfl
@[simp] theorem Engine.raise_msgLen (e : Engine) (c : ErrCode) : (e.raise c).msgLen = e.msgLen := by unfold Engine.raise; split <;> rfl
@[simp] theorem Engine.raise_done (e : Engine) (c : ErrCode) : (e.raise c).done = e.done := by unfold Engine.raise; split <;> rfl
@[simp] theorem Engine.raise_phase (e : Engine) (c : ErrCode) : (e.raise c).phase = e.phase := by unfold Engine.raise; split <;> rfl
@[simp] theorem Engine.raise_t (e : Engine) (c : ErrCode) : (e.raise c).t = e.t := by unfold Engine.raise; split <;> rfl
@[simp] theorem Engine.raise_pend (e : Engine) (c : ErrCode) : (e.raise c).pend = e.pend := by unfold Engine.raise; split <;> rfl
@[simp] theorem Engine.raise_vars (e : Engine) (c : ErrCode) : (e.raise c).vars = e.vars := by unfold Engine.raise; split <;> rfl
@[simp] theorem Engine.raise_w (e : Engine) (c : ErrCode) : (e.raise c).w = e.w := by unfold Engine.raise; split <;> rfl
@[simp] theorem Engine.raise_err (e : Engine) (c : ErrCode) :
    (e.raise c).err = if e.err = 0#4 then c.bits else e.err := by
  unfold Engine.raise; split <;> rfl
@[simp] theorem Engine.clearErr_h (e : Engine) : (e.clearErr).h = e.h := rfl
@[simp] theorem Engine.clearErr_blk (e : Engine) : (e.clearErr).blk = e.blk := rfl
@[simp] theorem Engine.clearErr_msgLen (e : Engine) : (e.clearErr).msgLen = e.msgLen := rfl
@[simp] theorem Engine.clearErr_err (e : Engine) : (e.clearErr).err = 0#4 := rfl
@[simp] theorem Engine.clearErr_done (e : Engine) : (e.clearErr).done = e.done := rfl
@[simp] theorem Engine.clearErr_phase (e : Engine) : (e.clearErr).phase = e.phase := rfl
@[simp] theorem Engine.clearErr_t (e : Engine) : (e.clearErr).t = e.t := rfl
@[simp] theorem Engine.clearErr_pend (e : Engine) : (e.clearErr).pend = e.pend := rfl
@[simp] theorem Engine.clearErr_vars (e : Engine) : (e.clearErr).vars = e.vars := rfl
@[simp] theorem Engine.clearErr_w (e : Engine) : (e.clearErr).w = e.w := rfl

/-! Loading a block and accepting a run (R148, R163, R164). -/

@[simp] theorem Engine.loadBlock_h (e : Engine) (b : Block) : (e.loadBlock b).h = e.h := rfl
@[simp] theorem Engine.loadBlock_blk (e : Engine) (b : Block) : (e.loadBlock b).blk = e.blk := rfl
@[simp] theorem Engine.loadBlock_msgLen (e : Engine) (b : Block) : (e.loadBlock b).msgLen = e.msgLen := rfl
@[simp] theorem Engine.loadBlock_err (e : Engine) (b : Block) : (e.loadBlock b).err = e.err := rfl
@[simp] theorem Engine.loadBlock_done (e : Engine) (b : Block) : (e.loadBlock b).done = e.done := rfl
@[simp] theorem Engine.loadBlock_phase (e : Engine) (b : Block) : (e.loadBlock b).phase = e.phase := rfl
@[simp] theorem Engine.loadBlock_t (e : Engine) (b : Block) : (e.loadBlock b).t = 0 := rfl
@[simp] theorem Engine.loadBlock_pend (e : Engine) (b : Block) : (e.loadBlock b).pend = e.pend := rfl
@[simp] theorem Engine.loadBlock_vars (e : Engine) (b : Block) : (e.loadBlock b).vars = Working.ofDigest e.h := rfl
@[simp] theorem Engine.loadBlock_w (e : Engine) (b : Block) : (e.loadBlock b).w = loadSchedule b e.w := rfl
@[simp] theorem Engine.startRun_h (e : Engine) (b : Block) (bs : List Block) : (e.startRun b bs).h = e.h := rfl
@[simp] theorem Engine.startRun_blk (e : Engine) (b : Block) (bs : List Block) : (e.startRun b bs).blk = e.blk := rfl
@[simp] theorem Engine.startRun_msgLen (e : Engine) (b : Block) (bs : List Block) : (e.startRun b bs).msgLen = e.msgLen := rfl
@[simp] theorem Engine.startRun_err (e : Engine) (b : Block) (bs : List Block) : (e.startRun b bs).err = e.err := rfl
@[simp] theorem Engine.startRun_done (e : Engine) (b : Block) (bs : List Block) : (e.startRun b bs).done = false := rfl
@[simp] theorem Engine.startRun_phase (e : Engine) (b : Block) (bs : List Block) : (e.startRun b bs).phase = .run := rfl
@[simp] theorem Engine.startRun_t (e : Engine) (b : Block) (bs : List Block) : (e.startRun b bs).t = 0 := rfl
@[simp] theorem Engine.startRun_pend (e : Engine) (b : Block) (bs : List Block) : (e.startRun b bs).pend = b :: bs := rfl
@[simp] theorem Engine.startRun_vars (e : Engine) (b : Block) (bs : List Block) : (e.startRun b bs).vars = Working.ofDigest e.h := rfl
@[simp] theorem Engine.startRun_w (e : Engine) (b : Block) (bs : List Block) : (e.startRun b bs).w = loadSchedule b e.w := rfl

/-! INIT (R162). -/

@[simp] theorem Engine.initDigest_h (e : Engine) : (e.initDigest).h = iv := rfl
@[simp] theorem Engine.initDigest_blk (e : Engine) : (e.initDigest).blk = e.blk := rfl
@[simp] theorem Engine.initDigest_msgLen (e : Engine) : (e.initDigest).msgLen = e.msgLen := rfl
@[simp] theorem Engine.initDigest_err (e : Engine) : (e.initDigest).err = 0#4 := rfl
@[simp] theorem Engine.initDigest_done (e : Engine) : (e.initDigest).done = true := rfl
@[simp] theorem Engine.initDigest_phase (e : Engine) : (e.initDigest).phase = e.phase := rfl
@[simp] theorem Engine.initDigest_t (e : Engine) : (e.initDigest).t = e.t := rfl
@[simp] theorem Engine.initDigest_pend (e : Engine) : (e.initDigest).pend = e.pend := rfl
@[simp] theorem Engine.initDigest_vars (e : Engine) : (e.initDigest).vars = e.vars := rfl
@[simp] theorem Engine.initDigest_w (e : Engine) : (e.initDigest).w = e.w := rfl

/-! Writes of the window (R55). -/

@[simp] theorem Engine.writeMsgLenLo_h (e : Engine) (v : Word) : (e.writeMsgLenLo v).h = e.h := rfl
@[simp] theorem Engine.writeMsgLenLo_blk (e : Engine) (v : Word) : (e.writeMsgLenLo v).blk = e.blk := rfl
@[simp] theorem Engine.writeMsgLenLo_msgLen (e : Engine) (v : Word) : (e.writeMsgLenLo v).msgLen = e.msgLen.extractLsb' 32 32 ++ v := rfl
@[simp] theorem Engine.writeMsgLenLo_err (e : Engine) (v : Word) : (e.writeMsgLenLo v).err = e.err := rfl
@[simp] theorem Engine.writeMsgLenLo_done (e : Engine) (v : Word) : (e.writeMsgLenLo v).done = e.done := rfl
@[simp] theorem Engine.writeMsgLenLo_phase (e : Engine) (v : Word) : (e.writeMsgLenLo v).phase = e.phase := rfl
@[simp] theorem Engine.writeMsgLenLo_t (e : Engine) (v : Word) : (e.writeMsgLenLo v).t = e.t := rfl
@[simp] theorem Engine.writeMsgLenLo_pend (e : Engine) (v : Word) : (e.writeMsgLenLo v).pend = e.pend := rfl
@[simp] theorem Engine.writeMsgLenLo_vars (e : Engine) (v : Word) : (e.writeMsgLenLo v).vars = e.vars := rfl
@[simp] theorem Engine.writeMsgLenLo_w (e : Engine) (v : Word) : (e.writeMsgLenLo v).w = e.w := rfl
@[simp] theorem Engine.writeMsgLenHi_h (e : Engine) (v : Word) : (e.writeMsgLenHi v).h = e.h := rfl
@[simp] theorem Engine.writeMsgLenHi_blk (e : Engine) (v : Word) : (e.writeMsgLenHi v).blk = e.blk := rfl
@[simp] theorem Engine.writeMsgLenHi_msgLen (e : Engine) (v : Word) : (e.writeMsgLenHi v).msgLen = v ++ e.msgLen.extractLsb' 0 32 := rfl
@[simp] theorem Engine.writeMsgLenHi_err (e : Engine) (v : Word) : (e.writeMsgLenHi v).err = e.err := rfl
@[simp] theorem Engine.writeMsgLenHi_done (e : Engine) (v : Word) : (e.writeMsgLenHi v).done = e.done := rfl
@[simp] theorem Engine.writeMsgLenHi_phase (e : Engine) (v : Word) : (e.writeMsgLenHi v).phase = e.phase := rfl
@[simp] theorem Engine.writeMsgLenHi_t (e : Engine) (v : Word) : (e.writeMsgLenHi v).t = e.t := rfl
@[simp] theorem Engine.writeMsgLenHi_pend (e : Engine) (v : Word) : (e.writeMsgLenHi v).pend = e.pend := rfl
@[simp] theorem Engine.writeMsgLenHi_vars (e : Engine) (v : Word) : (e.writeMsgLenHi v).vars = e.vars := rfl
@[simp] theorem Engine.writeMsgLenHi_w (e : Engine) (v : Word) : (e.writeMsgLenHi v).w = e.w := rfl
@[simp] theorem Engine.writeBlk_h (e : Engine) (j : Fin 16) (v : Word) : (e.writeBlk j v).h = e.h := rfl
@[simp] theorem Engine.writeBlk_blk (e : Engine) (j : Fin 16) (v : Word) : (e.writeBlk j v).blk = e.blk.set j v := rfl
@[simp] theorem Engine.writeBlk_msgLen (e : Engine) (j : Fin 16) (v : Word) : (e.writeBlk j v).msgLen = e.msgLen := rfl
@[simp] theorem Engine.writeBlk_err (e : Engine) (j : Fin 16) (v : Word) : (e.writeBlk j v).err = e.err := rfl
@[simp] theorem Engine.writeBlk_done (e : Engine) (j : Fin 16) (v : Word) : (e.writeBlk j v).done = e.done := rfl
@[simp] theorem Engine.writeBlk_phase (e : Engine) (j : Fin 16) (v : Word) : (e.writeBlk j v).phase = e.phase := rfl
@[simp] theorem Engine.writeBlk_t (e : Engine) (j : Fin 16) (v : Word) : (e.writeBlk j v).t = e.t := rfl
@[simp] theorem Engine.writeBlk_pend (e : Engine) (j : Fin 16) (v : Word) : (e.writeBlk j v).pend = e.pend := rfl
@[simp] theorem Engine.writeBlk_vars (e : Engine) (j : Fin 16) (v : Word) : (e.writeBlk j v).vars = e.vars := rfl
@[simp] theorem Engine.writeBlk_w (e : Engine) (j : Fin 16) (v : Word) : (e.writeBlk j v).w = e.w := rfl

/-! Engine steps (R149, R150). -/

@[simp] theorem Engine.roundStep_h (e : Engine) (ht : e.t.val < 64) : (e.roundStep ht).h = e.h := rfl
@[simp] theorem Engine.roundStep_blk (e : Engine) (ht : e.t.val < 64) : (e.roundStep ht).blk = e.blk := rfl
@[simp] theorem Engine.roundStep_msgLen (e : Engine) (ht : e.t.val < 64) : (e.roundStep ht).msgLen = e.msgLen := rfl
@[simp] theorem Engine.roundStep_err (e : Engine) (ht : e.t.val < 64) : (e.roundStep ht).err = e.err := rfl
@[simp] theorem Engine.roundStep_done (e : Engine) (ht : e.t.val < 64) : (e.roundStep ht).done = e.done := rfl
@[simp] theorem Engine.roundStep_phase (e : Engine) (ht : e.t.val < 64) : (e.roundStep ht).phase = e.phase := rfl
@[simp] theorem Engine.roundStep_t (e : Engine) (ht : e.t.val < 64) : (e.roundStep ht).t = ⟨e.t.val + 1, by omega⟩ := rfl
@[simp] theorem Engine.roundStep_pend (e : Engine) (ht : e.t.val < 64) : (e.roundStep ht).pend = e.pend := rfl
@[simp] theorem Engine.roundStep_vars (e : Engine) (ht : e.t.val < 64) : (e.roundStep ht).vars = mixRound e.vars roundK[e.t.val] (extendSchedule e.w e.t.val ht)[e.t.val] := rfl
@[simp] theorem Engine.roundStep_w (e : Engine) (ht : e.t.val < 64) : (e.roundStep ht).w = extendSchedule e.w e.t.val ht := rfl
@[simp] theorem Engine.feedbackStep_blk (e : Engine) : e.feedbackStep.blk = e.blk := by unfold Engine.feedbackStep; dsimp only; split <;> rfl
@[simp] theorem Engine.feedbackStep_msgLen (e : Engine) : e.feedbackStep.msgLen = e.msgLen := by unfold Engine.feedbackStep; dsimp only; split <;> rfl
@[simp] theorem Engine.feedbackStep_err (e : Engine) : e.feedbackStep.err = e.err := by unfold Engine.feedbackStep; dsimp only; split <;> rfl
@[simp] theorem Engine.feedbackStep_h (e : Engine) : e.feedbackStep.h = feedback e.h e.vars := by unfold Engine.feedbackStep; dsimp only; split <;> rfl
@[simp] theorem Engine.feedbackStep_pend (e : Engine) : e.feedbackStep.pend = e.pend.tail := by unfold Engine.feedbackStep; dsimp only; split <;> rfl
@[simp] theorem Engine.step_blk (e : Engine) : e.step.blk = e.blk := by unfold Engine.step; split <;> simp
@[simp] theorem Engine.step_msgLen (e : Engine) : e.step.msgLen = e.msgLen := by unfold Engine.step; split <;> simp
@[simp] theorem Engine.step_err (e : Engine) : e.step.err = e.err := by unfold Engine.step; split <;> simp

/-! The whole state. -/

@[simp] theorem State.setEngine_engine (s : State) (e : Engine) : (s.setEngine e).engine = e := rfl
@[simp] theorem State.setEngine_host (s : State) (e : Engine) : (s.setEngine e).host = s.host := rfl
@[simp] theorem State.setEngine_turns (s : State) (e : Engine) : (s.setEngine e).turns = s.turns := rfl
@[simp] theorem State.setTodo_engine (s : State) (ops : List HostOp) : (s.setTodo ops).engine = s.engine := rfl
@[simp] theorem State.setTodo_host (s : State) (ops : List HostOp) : (s.setTodo ops).host = { s.host with todo := ops } := rfl
@[simp] theorem State.setTodo_turns (s : State) (ops : List HostOp) : (s.setTodo ops).turns = s.turns := rfl
@[simp] theorem State.logRead_engine (s : State) (off : Nat) (v : Word) : (s.logRead off v).engine = s.engine := rfl
@[simp] theorem State.logRead_host (s : State) (off : Nat) (v : Word) : (s.logRead off v).host = { s.host with reads := (off, v) :: s.host.reads } := rfl
@[simp] theorem State.logRead_turns (s : State) (off : Nat) (v : Word) : (s.logRead off v).turns = s.turns := rfl
@[simp] theorem State.hostRead_engine (s : State) (off : Nat) : (s.hostRead off).engine = s.engine := rfl
@[simp] theorem State.hostRead_host (s : State) (off : Nat) : (s.hostRead off).host = { s.host with reads := (off, s.engine.read off) :: s.host.reads } := rfl
@[simp] theorem State.hostRead_turns (s : State) (off : Nat) : (s.hostRead off).turns = s.turns := rfl
@[simp] theorem State.assertReset_engine (s : State) : (s.assertReset).engine = Engine.reset := rfl
@[simp] theorem State.assertReset_host (s : State) : (s.assertReset).host = s.host := rfl
@[simp] theorem State.assertReset_turns (s : State) : (s.assertReset).turns = s.turns := rfl
@[simp] theorem State.engineStep_engine (s : State) : (s.engineStep).engine = s.engine.step := rfl
@[simp] theorem State.engineStep_host (s : State) : (s.engineStep).host = s.host := rfl
@[simp] theorem State.engineStep_turns (s : State) : (s.engineStep).turns = s.turns.afterEngine := rfl
@[simp] theorem State.countHostStep_engine (s : State) : (s.countHostStep).engine = s.engine := by unfold State.countHostStep; split <;> rfl
@[simp] theorem State.countHostStep_host (s : State) : (s.countHostStep).host = s.host := by unfold State.countHostStep; split <;> rfl
@[simp] theorem State.letHostMove_engine (s : State) : (s.letHostMove).engine = s.engine := by unfold State.letHostMove; split <;> rfl
@[simp] theorem State.letHostMove_host (s : State) : (s.letHostMove).host = s.host := by unfold State.letHostMove; split <;> rfl
@[simp] theorem State.hostPoll_engine (s : State) (rest : List HostOp) : (s.hostPoll rest).engine = s.engine := by unfold State.hostPoll; split <;> rfl
@[simp] theorem State.hostPoll_host (s : State) (rest : List HostOp) : (s.hostPoll rest).host = { todo := if s.engine.status.getLsbD 0 then .poll :: rest else rest, reads := (statusOffset, s.engine.read statusOffset) :: s.host.reads } := by
 unfold State.hostPoll; split <;> simp [*]
@[simp] theorem State.hostPoll_turns (s : State) (rest : List HostOp) : (s.hostPoll rest).turns = s.turns := by unfold State.hostPoll; split <;> rfl

end Sys2Proof.Machine
end

