-- ==== Sys2Proof/Laws/Ops.lean ====
section
/-! SUPPORT. What each shared operation can do, said once: the register map, the guards of command acceptance, the
commands, the host steps, and the step. Later proofs cite these instead of unfolding the operations. -/

namespace Sys2Proof.Machine

/-! The register map (R51). -/

@[simp] theorem registerAt_cmd : registerAt 0x00 = .cmd := rfl

@[simp] theorem registerAt_status : registerAt 0x04 = .status := rfl

@[simp] theorem registerAt_msgLenLo : registerAt 0x08 = .msgLenLo := rfl

@[simp] theorem registerAt_msgLenHi : registerAt 0x0C = .msgLenHi := rfl

theorem registerAt_h (off : Nat) (h : 0x20 ≤ off ∧ off < 0x40) :
    registerAt off = .h ⟨(off - 0x20) / 4, by omega⟩ := by
  unfold registerAt
  rw [if_neg (by omega), if_neg (by omega), if_neg (by omega), if_neg (by omega), dif_pos h]

theorem registerAt_blk (off : Nat) (h : 0x40 ≤ off ∧ off < 0x80) :
    registerAt off = .blk ⟨(off - 0x40) / 4, by omega⟩ := by
  unfold registerAt
  rw [if_neg (by omega), if_neg (by omega), if_neg (by omega), if_neg (by omega), dif_neg (by omega), dif_pos h]

theorem registerAt_eq_cmd (off : Nat) : registerAt off = .cmd ↔ off = 0x00 := by
  unfold registerAt
  split
  · simp [*]
  · repeat' split
    all_goals simp [*]

/-- An offset of the window that selects `H[i]` at a word boundary. -/
theorem registerAt_eq_h (off : Nat) (i : Fin 8) (ho : off % 4 = 0) (h : registerAt off = .h i) :
    off = 0x20 + 4 * i.val := by
  unfold registerAt at h
  repeat' split at h
  all_goals first
    | (cases h; dsimp only; omega)
    | cases h

/-! The guards of command acceptance (R160, R192, R196). -/

theorem Engine.whenIdle_idle (e : Engine) (act : Engine → Engine) (h : e.phase = .idle) : e.whenIdle act = act e := by
  simp [Engine.whenIdle, h]

theorem Engine.whenIdle_run (e : Engine) (act : Engine → Engine) (h : e.phase = .run) :
    e.whenIdle act = e.raise .busy := by
  simp [Engine.whenIdle, h]

/-- A guarded action happens when idle, else ERR_BUSY is raised; there is no third case. -/
theorem Engine.whenIdle_cases (e : Engine) (act : Engine → Engine) :
    (e.phase = .idle ∧ e.whenIdle act = act e) ∨ (e.phase = .run ∧ e.whenIdle act = e.raise .busy) := by
  cases h : e.phase
  · exact .inl ⟨rfl, e.whenIdle_idle act h⟩
  · exact .inr ⟨rfl, e.whenIdle_run act h⟩

theorem Engine.whenNoError_zero (e : Engine) (act : Engine → Engine) (h : e.err = 0#4) : e.whenNoError act = act e :=
  if_pos h

theorem Engine.whenNoError_nonzero (e : Engine) (act : Engine → Engine) (h : e.err ≠ 0#4) : e.whenNoError act = e :=
  if_neg h

/-- `raise` as one record update. -/
theorem Engine.raise_eq (e : Engine) (c : ErrCode) :
    e.raise c = { e with err := if e.err = 0#4 then c.bits else e.err } := by
  unfold Engine.raise
  split
  · rfl
  · rfl

/-- The padded blocks are never none: PAD_LAST has a first block to load (R126). -/
theorem padLastBlocks_ne_nil (blk : Block) (len : Nat) (n : BitVec 64) : padLastBlocks blk len n ≠ [] := by
  unfold padLastBlocks padBlocks padOneBlock padSplit padFull
  split
  · simp
  · split <;> simp

/-- What PAD_LAST does to an engine, idle and without an error: one of its two errors, or the start of a run on its
blocks (R160). -/
theorem Engine.padLastChecked_cases (e : Engine) (len : Nat) :
    (e.msgLen = 0#64 ∧ e.padLastChecked len = e.raise .empty) ∨
    (e.msgLen ≠ 0#64 ∧ 64 < len ∧ e.padLastChecked len = e.raise .tail) ∨
    (e.msgLen ≠ 0#64 ∧ len ≤ 64 ∧ ∃ b bs, padLastBlocks e.blk len e.msgLen = b :: bs ∧
      e.padLastChecked len = e.startRun b bs) := by
  unfold Engine.padLastChecked
  split
  · exact .inl ⟨‹_›, rfl⟩
  · split
    · exact .inr (.inl ⟨‹_›, ‹_›, rfl⟩)
    · refine .inr (.inr ⟨‹_›, by omega, ?_⟩)
      unfold Engine.padLastRun
      split
      · exact absurd ‹_› (padLastBlocks_ne_nil _ _ _)
      · exact ⟨_, _, ‹_›, rfl⟩

/-! The commands. -/

/-- A command's effect on the engine. -/
def commandEffect : Instr → Engine → Engine
  | .nop => fun e => e
  | .init => fun e => e.whenIdle Engine.initDigest
  | .compress => fun e => e.whenIdle fun e => e.whenNoError Engine.compressBlk
  | .padLast tailLen => fun e => e.whenIdle fun e => e.whenNoError fun e => e.padLastChecked tailLen
  | .reserved4to7 _ => Engine.rejectOpcode
  | .reserved8toF _ => Engine.rejectOpcode

/-- What a command can do to an engine: nothing, record an error, INIT, or start a run. -/
theorem commandEffect_cases (i : Instr) (e : Engine) :
    commandEffect i e = e ∨ (∃ c, commandEffect i e = e.raise c) ∨ (i = .init ∧ e.phase = .idle ∧ commandEffect i e = e.initDigest) ∨
    (e.phase = .idle ∧ e.err = 0#4 ∧ ∃ b bs, commandEffect i e = e.startRun b bs ∧
      ((i = .compress ∧ b = e.blk ∧ bs = []) ∨
        ∃ len, i = .padLast len ∧ len ≤ 64 ∧ e.msgLen ≠ 0#64 ∧ padLastBlocks e.blk len e.msgLen = b :: bs)) := by
  cases i with
  | nop => exact .inl rfl
  | init =>
    rcases e.whenIdle_cases Engine.initDigest with ⟨hp, h⟩ | ⟨-, h⟩
    · exact .inr (.inr (.inl ⟨rfl, hp, h⟩))
    · exact .inr (.inl ⟨_, h⟩)
  | compress =>
    rcases e.whenIdle_cases (fun e => e.whenNoError Engine.compressBlk) with ⟨hp, h⟩ | ⟨-, h⟩
    · by_cases he : e.err = 0#4
      · rw [e.whenNoError_zero _ he] at h
        exact .inr (.inr (.inr ⟨hp, he, _, _, h, .inl ⟨rfl, rfl, rfl⟩⟩))
      · rw [e.whenNoError_nonzero _ he] at h
        exact .inl h
    · exact .inr (.inl ⟨_, h⟩)
  | padLast len =>
    rcases e.whenIdle_cases (fun e => e.whenNoError fun e => e.padLastChecked len) with ⟨hp, h⟩ | ⟨-, h⟩
    · by_cases he : e.err = 0#4
      · rw [e.whenNoError_zero _ he] at h
        rcases e.padLastChecked_cases len with ⟨-, h'⟩ | ⟨-, -, h'⟩ | ⟨hn, hl, b, bs, hb, h'⟩
        · exact .inr (.inl ⟨_, h.trans h'⟩)
        · exact .inr (.inl ⟨_, h.trans h'⟩)
        · exact .inr (.inr (.inr ⟨hp, he, b, bs, h.trans h', .inr ⟨len, rfl, hl, hn, hb⟩⟩))
      · rw [e.whenNoError_nonzero _ he] at h
        exact .inl h
    · exact .inr (.inl ⟨_, h⟩)
  | reserved4to7 op =>
    rcases e.whenIdle_cases (fun e => e.raise .badOp) with ⟨-, h⟩ | ⟨-, h⟩ <;> exact .inr (.inl ⟨_, h⟩)
  | reserved8toF op =>
    rcases e.whenIdle_cases (fun e => e.raise .badOp) with ⟨-, h⟩ | ⟨-, h⟩ <;> exact .inr (.inl ⟨_, h⟩)

/-- `exec` is the command's effect on the engine, and touches nothing else. -/
theorem exec_eq_effect (i : Instr) (s : State) : exec i s = .next (s.setEngine (commandEffect i s.engine)) := by
  cases i <;> rfl

/-! Host steps. -/

/-- An access that went on was at an aligned offset of the window. -/
theorem checkOffset_next {off : Nat} {x : Host.Outcome State Fault Refusal} {s' : State}
    (h : checkOffset off x = .next s') : off < windowSize ∧ off % 4 = 0 ∧ x = .next s' := by
  unfold checkOffset at h
  split at h
  · cases h
  · split at h
    · cases h
    · exact ⟨by omega, by omega, h⟩

theorem checkOffset_legal {off : Nat} (x : Host.Outcome State Fault Refusal) (hw : off < windowSize)
    (ha : off % 4 = 0) : checkOffset off x = x := by
  unfold checkOffset
  rw [if_neg (by omega), if_neg (by omega)]

/-- A host write's effect on the engine: at CMD a command, elsewhere a register write. -/
def Engine.hostWrite (e : Engine) (off : Nat) (v : Word) : Engine :=
  if registerAt off = .cmd then commandEffect (decode v) e else e.writeRegister (registerAt off) v

theorem State.hostWrite_eq (s : State) (off : Nat) (v : Word) :
    s.hostWrite off v = .next (s.setEngine (s.engine.hostWrite off v)) := by
  unfold State.hostWrite Engine.hostWrite
  cases registerAt off <;> first | exact exec_eq_effect _ _ | rfl

/-- A host write to a register: a command, a write of one register, an ERR_BUSY, or nothing (R55). -/
theorem Engine.hostWrite_cases (e : Engine) (off : Nat) (v : Word) :
    (off = 0x00 ∧ e.hostWrite off v = commandEffect (decode v) e) ∨
    (registerAt off = .msgLenLo ∧ e.hostWrite off v = e.writeMsgLenLo v) ∨
    (registerAt off = .msgLenHi ∧ e.hostWrite off v = e.writeMsgLenHi v) ∨
    (∃ i, registerAt off = .h i ∧ e.phase = .idle ∧ e.hostWrite off v = { e with h := e.h.set i v }) ∨
    (∃ i, registerAt off = .h i ∧ e.phase = .run ∧ e.hostWrite off v = e.raise .busy) ∨
    (∃ j, registerAt off = .blk j ∧ e.hostWrite off v = e.writeBlk j v) ∨
    ((registerAt off = .status ∨ registerAt off = .reserved) ∧ e.hostWrite off v = e) := by
  unfold Engine.hostWrite
  have h0 := registerAt_eq_cmd off
  cases hr : registerAt off with
  | cmd => exact .inl ⟨h0.1 hr, if_pos rfl⟩
  | status => exact .inr (.inr (.inr (.inr (.inr (.inr ⟨.inl rfl, if_neg (by simp)⟩)))))
  | msgLenLo => exact .inr (.inl ⟨rfl, if_neg (by simp)⟩)
  | msgLenHi => exact .inr (.inr (.inl ⟨rfl, if_neg (by simp)⟩))
  | h i =>
    rcases e.whenIdle_cases (fun e => { e with h := e.h.set i v }) with ⟨hp, h'⟩ | ⟨hp, h'⟩
    · exact .inr (.inr (.inr (.inl ⟨i, rfl, hp, (if_neg (by simp)).trans h'⟩)))
    · exact .inr (.inr (.inr (.inr (.inl ⟨i, rfl, hp, (if_neg (by simp)).trans h'⟩))))
  | blk j => exact .inr (.inr (.inr (.inr (.inr (.inl ⟨j, rfl, if_neg (by simp)⟩)))))
  | reserved => exact .inr (.inr (.inr (.inr (.inr (.inr ⟨.inr rfl, if_neg (by simp)⟩)))))

/-- What a host step can do, when it answers a next state. -/
theorem State.hostStep_cases {s s' : State} {op : HostOp} {rest : List HostOp} (h : s.hostStep op rest = .next s') :
    (∃ off, op = .rd off ∧ off < windowSize ∧ off % 4 = 0 ∧ s' = (s.setTodo rest).hostRead off) ∨
    (∃ off v, op = .wr off v ∧ off < windowSize ∧ off % 4 = 0 ∧
      s' = (s.setTodo rest).setEngine (s.engine.hostWrite off v)) ∨
    (op = .poll ∧ s' = s.hostPoll rest) ∨ (op = .reset ∧ s' = (s.setTodo rest).assertReset) := by
  cases op with
  | rd off =>
    obtain ⟨hw, ha, hx⟩ := checkOffset_next h
    cases hx
    exact .inl ⟨off, rfl, hw, ha, rfl⟩
  | wr off v =>
    obtain ⟨hw, ha, hx⟩ := checkOffset_next h
    rw [State.hostWrite_eq] at hx
    cases hx
    exact .inr (.inl ⟨off, v, rfl, hw, ha, rfl⟩)
  | poll => cases h; exact .inr (.inr (.inl ⟨rfl, rfl⟩))
  | nonWord off width => cases h
  | reset => cases h; exact .inr (.inr (.inr ⟨rfl, rfl⟩))

/-! The step. -/

theorem State.mover_engine {s : State} (h : s.mover = .engine) : s.engine.phase = .run := by
  unfold State.mover at h
  split at h <;> first | assumption | cases h

theorem State.mover_host {s : State} {op : HostOp} {rest : List HostOp} (h : s.mover = .host op rest) :
    s.host.todo = op :: rest := by
  unfold State.mover at h
  split at h
  · cases h
  · cases h; assumption
  · cases h
  · split at h
    · cases h
    · cases h; assumption

theorem State.mover_nobody {s : State} (h : s.mover = .nobody) : s.engine.phase = .idle ∧ s.host.todo = [] := by
  unfold State.mover at h
  split at h
  · exact ⟨‹_›, ‹_›⟩
  · cases h
  · cases h
  · split at h <;> cases h

/-- What a step can do, when it answers a next state. -/
theorem step_cases {s s' : State} (h : step s = .next s') :
    (s.mover = .engine ∧ s' = s.engineStep) ∨
    (∃ op rest, s.mover = .host op rest ∧ s.countHostStep.hostStep op rest = .next s') ∨
    (s.mover = .nobody ∧ s' = s) := by
  unfold step at h
  split at h
  · cases h; exact .inl ⟨‹_›, rfl⟩
  · exact .inr (.inl ⟨_, _, ‹_›, h⟩)
  · cases h; exact .inr (.inr ⟨‹_›, rfl⟩)

end Sys2Proof.Machine
end

