-- ==== Sys2Proof/Laws/Engine.lean ====
section
/-! SUPPORT. The mixer's rounds and the schedule one step at a time, the engine left alone, and the interleaving's
counter. -/

namespace Sys2Proof.Machine

/-! Word sums (R108). -/

@[simp] theorem addWords_nil (x : Word) : addWords x [] = x := rfl

@[simp] theorem addWords_cons (x y : Word) (xs : List Word) : addWords x (y :: xs) = addWords (x + y) xs := rfl

/-! Rounds. -/

@[simp] theorem rounds_zero (w : MsgSchedule) (v : Working) (h : 0 ≤ 64) : rounds w v 0 h = v := rfl

theorem rounds_succ (w : MsgSchedule) (v : Working) (n : Nat) (h : n + 1 ≤ 64) :
    rounds w v (n + 1) h = mixRound (rounds w v n (by omega)) roundK[n] w[n] := by
  simp [rounds, Nat.fold_succ]

/-! The schedule, word by word. -/

/-- Extending at `t` leaves every other word. -/
theorem extendSchedule_get_ne (w : MsgSchedule) (t j : Nat) (ht : t < 64) (hj : j < 64) (hne : j ≠ t) :
    (extendSchedule w t ht)[j] = w[j] := by
  unfold extendSchedule
  split
  · exact Vector.getElem_set_ne _ _ (Ne.symm hne)
  · rfl

/-- Extending at `t ≥ 16` writes the recurrence's word there (R142). -/
theorem extendSchedule_get_self (w : MsgSchedule) (t : Nat) (lo : 16 ≤ t) (ht : t < 64) :
    (extendSchedule w t ht)[t] = gamma1 w[t - 2] + w[t - 7] + gamma0 w[t - 15] + w[t - 16] := by
  unfold extendSchedule
  rw [dif_pos lo, Vector.getElem_set_self]
  simp [scheduleWord]

/-- Below 16 nothing is extended (R141). -/
theorem extendSchedule_below (w : MsgSchedule) (t : Nat) (hi : t < 16) (ht : t < 64) : extendSchedule w t ht = w := by
  unfold extendSchedule
  rw [dif_neg (by omega)]

/-- A load writes the block's 16 words and leaves the others (R148). -/
theorem loadSchedule_get (b : Block) (w : MsgSchedule) (j : Nat) (hj : j < 64) :
    (loadSchedule b w)[j] = if h : j < 16 then b[j] else w[j] := by
  simp [loadSchedule]

/-- The schedule of a block as far as the words below `max 16 n`. -/
def scheduleUpTo (b : Block) (n : Nat) (hn : n ≤ 64) : MsgSchedule :=
  Nat.fold n (fun t ht w => extendSchedule w t (by omega)) (loadSchedule b (Vector.replicate 64 0#32))

theorem schedule_eq_upTo (b : Block) : schedule b = scheduleUpTo b 64 (Nat.le_refl 64) := rfl

theorem scheduleUpTo_succ (b : Block) (n : Nat) (hn : n + 1 ≤ 64) :
    scheduleUpTo b (n + 1) hn = extendSchedule (scheduleUpTo b n (by omega)) n (by omega) := by
  simp [scheduleUpTo, Nat.fold_succ]

/-- Words below `n` are not written again. -/
theorem scheduleUpTo_stable (b : Block) (j n : Nat) (hj : j < n) (hn : n ≤ 64) :
    (scheduleUpTo b 64 (Nat.le_refl 64))[j] = (scheduleUpTo b n hn)[j] := by
  have key : ∀ (k : Nat) (hk : n + k ≤ 64), (scheduleUpTo b (n + k) hk)[j] = (scheduleUpTo b n hn)[j] := by
    intro k
    induction k with
    | zero => intro _; rfl
    | succ k ih =>
      intro hk
      rw [← ih (by omega)]
      have := scheduleUpTo_succ b (n + k) (by omega)
      rw [show scheduleUpTo b (n + (k + 1)) hk = extendSchedule (scheduleUpTo b (n + k) (by omega)) (n + k) (by omega)
        from this]
      exact extendSchedule_get_ne _ _ _ _ _ (by omega)
  have := key (64 - n) (by omega)
  simpa [show n + (64 - n) = 64 by omega] using this

/-! The engine left alone. -/

theorem Engine.advance_idle (e : Engine) (h : e.phase = .idle) : e.advance = e := by simp [Engine.advance, h]

theorem Engine.advance_run (e : Engine) (h : e.phase = .run) : e.advance = e.step := by simp [Engine.advance, h]

@[simp] theorem Engine.advanceN_zero (e : Engine) : e.advanceN 0 = e := rfl

theorem Engine.advanceN_succ (e : Engine) (n : Nat) : e.advanceN (n + 1) = e.advance.advanceN n := rfl

theorem Engine.advanceN_add (e : Engine) (m n : Nat) : e.advanceN (m + n) = (e.advanceN m).advanceN n := by
  induction m generalizing e with
  | zero => simp
  | succ m ih => rw [Nat.succ_add, Engine.advanceN_succ, ih, ← Engine.advanceN_succ]

/-- An idle engine takes no step (R208). -/
theorem Engine.advanceN_idle (e : Engine) (n : Nat) (h : e.phase = .idle) : e.advanceN n = e := by
  induction n with
  | zero => rfl
  | succ n ih => rw [Engine.advanceN_succ, e.advance_idle h, ih]

/-! The interleaving's counter. -/

@[simp] theorem Turns.setWait_wait (u : Turns) (n : Nat) : (u.setWait n).wait = n := by
  unfold Turns.setWait
  split <;> rfl

/-- A host step while running uses up one of the host steps before the next engine step. -/
theorem State.countHostStep_wait (s : State) (h : s.engine.phase = .run) :
    s.countHostStep.turns.wait = s.turns.wait - 1 := by
  unfold State.countHostStep
  split
  · rename_i h'; rw [h] at h'; cases h'
  · exact Turns.setWait_wait _ _

/-- The host moves while the engine runs only where its number of steps is not used up. -/
theorem State.wait_pos_of_host {s : State} {op : HostOp} {rest : List HostOp} (h : s.mover = .host op rest)
    (hr : s.engine.phase = .run) : 0 < s.turns.wait := by
  unfold State.mover at h
  split at h
  · cases h
  · rename_i h' _; rw [hr] at h'; cases h'
  · cases h
  · split at h
    · cases h
    · omega

end Sys2Proof.Machine
end

