-- ==== Sys2Proof/Laws/Padding.lean ====
section
/-! SUPPORT. The small lemmas of the padding unit's bytes and words. -/

namespace Sys2Proof.Machine

@[simp] theorem zeroBytes_length (k : Nat) : (zeroBytes k).length = k := by simp [zeroBytes]

@[simp] theorem be64Bytes_length (v : BitVec 64) : (be64Bytes v).length = 8 := rfl

@[simp] theorem trailer_length (n : BitVec 64) : (trailer n).length = 8 := rfl

theorem tailBytes_length (blk : Block) (len : Nat) (h : len ≤ 64) : (tailBytes blk len).length = len := by
  rw [tailBytes, List.length_take, List.length_ofFn, Nat.min_eq_left h]

theorem tailBytes_get (blk : Block) (len i : Nat) (h : i < (tailBytes blk len).length) (hi : i < 64) :
    (tailBytes blk len)[i] = blkByte blk ⟨i, hi⟩ := by
  simp only [tailBytes, List.getElem_take, List.getElem_ofFn]

theorem toWords_get (bytes : List Byte) (j : Nat) (hj : j < 16) :
    (toWords bytes)[j] = be32 (bytes.getD (4 * j) 0#8) (bytes.getD (4 * j + 1) 0#8)
      (bytes.getD (4 * j + 2) 0#8) (bytes.getD (4 * j + 3) 0#8) := by
  unfold toWords
  rw [Vector.getElem_ofFn]

/-- The three cases of the padding unit (R126), for a tail no longer than a block. -/
theorem padBlocks_cases (tail : List Byte) (len : Nat) (n : BitVec 64) :
    (len < 56 ∧ padBlocks tail len n = [tail ++ [0x80#8] ++ zeroBytes (55 - len) ++ trailer n]) ∨
    (56 ≤ len ∧ len < 64 ∧
      padBlocks tail len n = [tail ++ [0x80#8] ++ zeroBytes (63 - len), zeroBytes 56 ++ trailer n]) ∨
    (64 ≤ len ∧ padBlocks tail len n = [tail, [0x80#8] ++ zeroBytes 55 ++ trailer n]) := by
  unfold padBlocks
  split
  · exact .inl ⟨‹_›, rfl⟩
  · split
    · exact .inr (.inl ⟨by omega, ‹_›, rfl⟩)
    · exact .inr (.inr ⟨by omega, rfl⟩)

end Sys2Proof.Machine
end

