-- ==== Sys2Proof/Laws/PerInstr.lean ====
section
/-! SUPPORT. Statements about every command as syntax, one lemma per constructor. -/

/-- EncodeFits: a command's word as the assembler writes it has the ignored bits 31:11 at 0 (spec/30_encoding.md R70,
R76: the words 0x00000000 to 0x000007FF), and its opcode in bits 3:0 (R71). -/
def Sys2Proof.Laws.EncodeFits.Statement (i : Sys2Proof.Instr) : Prop :=
  i.WF → (Sys2Proof.encode i).toNat < 2 ^ 11 ∧ (Sys2Proof.encode i).toNat % 16 = i.opcode.toNat

namespace Sys2Proof.Laws

/-- The bits of an encoded command, as a number. -/
theorem encode_toNat (i : Instr) : (encode i).toNat = i.tailBits.toNat * 16 + i.opcode.toNat := by
  have ho := i.opcode.isLt
  have ht := i.tailBits.isLt
  unfold encode encodeWith
  rw [BitVec.toNat_append, ← Nat.shiftLeft_add_eq_or_of_lt ho, Nat.shiftLeft_eq, BitVec.toNat_append]
  simp

/-- The statement holds of every command, since TAIL_LEN has 7 bits and OP has 4. -/
theorem encodeFits_all (i : Instr) : EncodeFits.Statement i := by
  intro _
  have ho := i.opcode.isLt
  have ht := i.tailBits.isLt
  rw [encode_toNat]
  omega

end Sys2Proof.Laws

theorem Sys2Proof.Laws.EncodeFits.nop : Sys2Proof.Laws.EncodeFits.Statement .nop := Sys2Proof.Laws.encodeFits_all _

theorem Sys2Proof.Laws.EncodeFits.init : Sys2Proof.Laws.EncodeFits.Statement .init := Sys2Proof.Laws.encodeFits_all _

theorem Sys2Proof.Laws.EncodeFits.compress : Sys2Proof.Laws.EncodeFits.Statement .compress :=
  Sys2Proof.Laws.encodeFits_all _

theorem Sys2Proof.Laws.EncodeFits.padLast (tailLen : Nat) :
    Sys2Proof.Laws.EncodeFits.Statement (.padLast tailLen) := Sys2Proof.Laws.encodeFits_all _

theorem Sys2Proof.Laws.EncodeFits.reserved4to7 (op : Nat) :
    Sys2Proof.Laws.EncodeFits.Statement (.reserved4to7 op) := Sys2Proof.Laws.encodeFits_all _

theorem Sys2Proof.Laws.EncodeFits.reserved8toF (op : Nat) :
    Sys2Proof.Laws.EncodeFits.Statement (.reserved8toF op) := Sys2Proof.Laws.encodeFits_all _
end

