-- ==== Sys2Proof/Laws/Step.lean ====
section
/-! SUPPORT. Runs of the machine one step at a time, and what a step leaves alone. -/

namespace Sys2Proof.Machine

@[simp] theorem run_zero (s : State) : core.run 0 s = .next s := rfl

/-- A run of one step more, for any machine of the host's interface. -/
theorem anyCore_run_succ (M : Host.Core) (n : Nat) (s : M.State) :
    M.run (n + 1) s = match M.step s with
      | .next s' => M.run n s'
      | .fault r => .fault r
      | .refused r => .refused r := rfl

theorem run_succ_next {s u : State} (n : Nat) (h : step s = .next u) : core.run (n + 1) s = core.run n u := by
  refine (anyCore_run_succ core n s).trans ?_
  rw [show core.step s = .next u from h]

theorem run_succ_fault {s : State} {r : Fault} (n : Nat) (h : step s = .fault r) : core.run (n + 1) s = .fault r := by
  refine (anyCore_run_succ core n s).trans ?_
  rw [show core.step s = .fault r from h]

theorem run_succ_refused {s : State} {r : Refusal} (n : Nat) (h : step s = .refused r) :
    core.run (n + 1) s = .refused r := by
  refine (anyCore_run_succ core n s).trans ?_
  rw [show core.step s = .refused r from h]

/-- A run of one step more that answers a next state went through a next state. -/
theorem run_succ_cases {s s' : State} {n : Nat} (h : core.run (n + 1) s = .next s') :
    ∃ u, step s = .next u ∧ core.run n u = .next s' := by
  cases hs : step s with
  | next u => exact ⟨u, rfl, (run_succ_next n hs).symm.trans h⟩
  | fault r => rw [run_succ_fault n hs] at h; cases h
  | refused r => rw [run_succ_refused n hs] at h; cases h

/-- An engine step at a counter below 64 is a round, else the feedback. -/
theorem Engine.step_cases (e : Engine) :
    (∃ ht : e.t.val < 64, e.step = e.roundStep ht) ∨ (e.t.val = 64 ∧ e.step = e.feedbackStep) := by
  unfold Engine.step
  by_cases ht : e.t.val < 64
  · exact .inl ⟨ht, dif_pos ht⟩
  · exact .inr ⟨by omega, dif_neg ht⟩

/-- The feedback step with no block after the head (R150). -/
theorem Engine.feedbackStep_last (e : Engine) (h : e.pend.tail = []) :
    e.feedbackStep = { e with h := feedback e.h e.vars, pend := [], phase := .idle, done := true } := by
  simp [Engine.feedbackStep, h]

/-- The feedback step with a block after the head (R150). -/
theorem Engine.feedbackStep_next (e : Engine) (b : Block) (bs : List Block) (h : e.pend.tail = b :: bs) :
    e.feedbackStep = { e with h := feedback e.h e.vars, pend := b :: bs }.loadBlock b := by
  simp [Engine.feedbackStep, h]

/-- A step with the host's next action to take goes on with it, when that action is a host step (R52). -/
theorem hostStep_of_legal (s : State) (op : HostOp) (rest : List HostOp) (h : op.legal = true) :
    ∃ s', s.hostStep op rest = .next s' := by
  cases op with
  | rd off =>
    simp only [HostOp.legal, Bool.and_eq_true, decide_eq_true_eq] at h
    exact ⟨_, checkOffset_legal _ h.1 h.2⟩
  | wr off v =>
    simp only [HostOp.legal, Bool.and_eq_true, decide_eq_true_eq] at h
    exact ⟨_, (checkOffset_legal _ h.1 h.2).trans (State.hostWrite_eq _ _ _)⟩
  | poll => exact ⟨_, rfl⟩
  | nonWord off width => cases h
  | reset => exact ⟨_, rfl⟩

end Sys2Proof.Machine
end

