-- ==== Sys2Proof/Tests/Slice0.lean ====
section
/-! SUPPORT. The model's own tests. Expected values come from the spec: its encodings (spec/30_encoding.md), and the
vectors of spec/95_test_vectors.md, named V<n> where a test uses one. The theorems named witness_… show a state and
operands that meet the hypotheses of the obligation named. -/

namespace Sys2Proof.Tests

open Sys2Proof.Machine Sys2Proof.Statements

/-! ### Small states -/

/-- A state with an engine, the host's actions still to do, and how many host steps come first. -/
def at_ (e : Engine) (ops : List HostOp) (waits : List Nat := []) : State :=
  { engine := e, host := { todo := ops, reads := [] }, turns := { waits := waits, drawn := 0 } }

/-- The reset engine (BLK all zero) with COMPRESS accepted. -/
def busy : Engine := Engine.reset.compressBlk

/-- The reset engine with a message length. -/
def withLen (n : Nat) : Engine := { Engine.reset with msgLen := BitVec.ofNat 64 n }

/-- The reset engine after INIT: `S = 00000002`. -/
def ready : Engine := Engine.reset.initDigest

/-- The reset engine with ERR_EMPTY recorded: `S = 00000030`. -/
def failed : Engine := Engine.reset.raise .empty

/-- The next state of an outcome, read through a function, or nothing. -/
def seen {α : Type} (f : State → α) : Host.Outcome State Fault Refusal → Option α
  | .next s => some (f s)
  | .fault _ => none
  | .refused _ => none

/-! ### WellFormed refuses what no command word carries -/

theorem test_padLast_128_ill_formed : (Instr.padLast 128).wellFormed = false := by decide

theorem test_padLast_127_well_formed : (Instr.padLast 127).wellFormed = true := by decide

theorem test_reserved4to7_3_ill_formed : (Instr.reserved4to7 3).wellFormed = false := by decide

theorem test_reserved4to7_8_ill_formed : (Instr.reserved4to7 8).wellFormed = false := by decide

theorem test_reserved8toF_7_ill_formed : (Instr.reserved8toF 7).wellFormed = false := by decide

theorem test_reserved8toF_16_ill_formed : (Instr.reserved8toF 16).wellFormed = false := by decide

/-! ### Decoding of words written out bit by bit: 21 ignored bits, TAIL_LEN, OP (R70) -/

theorem test_decode_nop : decode (0b111111111111111111111#21 ++ 0b1111111#7 ++ 0b0000#4) = .nop := by decide

theorem test_decode_init : decode (0b000000000000000000000#21 ++ 0b0000000#7 ++ 0b0001#4) = .init := by decide

theorem test_decode_compress : decode (0b000000000000000000000#21 ++ 0b0000010#7 ++ 0b0010#4) = .compress := by decide

theorem test_decode_padLast : decode (0b000000000000000000001#21 ++ 0b1000001#7 ++ 0b0011#4) = .padLast 65 := by decide

theorem test_decode_reserved4to7 : decode (0b000000000000000000000#21 ++ 0b0000000#7 ++ 0b0100#4) = .reserved4to7 4 ∧
    decode (0b000000000000000000000#21 ++ 0b0000000#7 ++ 0b0111#4) = .reserved4to7 7 := by decide

theorem test_decode_reserved8toF : decode (0b100000000000000000000#21 ++ 0b0000000#7 ++ 0b1000#4) = .reserved8toF 8 ∧
    decode (0b000000000000000000000#21 ++ 0b0000001#7 ++ 0b1111#4) = .reserved8toF 15 := by decide

/-- R72, R76: the word of PAD_LAST 56. -/
theorem test_encode_padLast : encode (.padLast 56) = 0x00000383#32 := by decide

theorem test_decodeTableWord_longer_is_none : decodeTableWord 40 (2 ^ 32) = none := by decide

theorem test_decodeTableWord_padLast : decodeTableWord 32 0x33 = some (.padLast 3) := by decide

/-! ### Word operations: V9 to V12 -/

theorem test_rotateRight : rotateRight 0x12345678#32 8 = 0x78123456#32 ∧ rotateRight 0x12345678#32 32 = 0x12345678#32 ∧
    rotateRight 0x00000001#32 33 = 0x80000000#32 := by decide

theorem test_shiftRight : shiftRight 0x12345678#32 10 = 0x00048d15#32 ∧ shiftRight 0xffffffff#32 31 = 1#32 := by decide

theorem test_choose_majority : choose 0xff00ff00#32 0x0f0f0f0f#32 0x33333333#32 = 0x0f330f33#32 ∧
    majority 0xff00ff00#32 0x0f0f0f0f#32 0x33333333#32 = 0x3f033f03#32 := by decide

theorem test_sigma : sigma0 0x6a09e667#32 = 0xce20b47e#32 ∧ sigma1 0x510e527f#32 = 0x3587272b#32 := by decide

theorem test_gamma : gamma0 0x12345678#32 = 0xe7fce6ee#32 ∧ gamma1 0x12345678#32 = 0xa1f78649#32 := by decide

theorem test_addWords : addWords 0xfffffffe#32 [0xffffffff#32, 0x00000003#32] = 0#32 := by decide

/-! ### Padding and compression: V15, V17, V19, V21 -/

/-- The block buffer of P1: "abc" and a byte that is ignored. -/
def abcBlk : Block := (Vector.replicate 16 0#32).set 0 0x616263ff#32

/-- A block buffer of 0x61 bytes. -/
def aBlk : Block := Vector.replicate 16 0x61616161#32

theorem test_pad_abc : padLastBlocks abcBlk 3 3#64 =
    [((Vector.replicate 16 0#32).set 0 0x61626380#32).set 15 0x00000018#32] := by decide

theorem test_pad_56 : padLastBlocks aBlk 56 56#64 = [(aBlk.set 14 0x80000000#32).set 15 0#32,
    (Vector.replicate 16 0#32).set 15 0x000001c0#32] := by decide

theorem test_pad_64 : padLastBlocks aBlk 64 64#64 = [aBlk,
    ((Vector.replicate 16 0#32).set 0 0x80000000#32).set 15 0x00000200#32] := by decide

theorem test_pad_truncates : padLastBlocks aBlk 8 2305843009213693952#64 =
    [(((Vector.replicate 16 0#32).set 0 0x61616161#32).set 1 0x61616161#32).set 2 0x80000000#32] := by decide

/-- The first round of "abc" (V23). -/
theorem test_round_abc : (mixRound (Working.ofDigest iv) roundK[0] 0x61626380#32).a = 0x5d6aebcd#32 ∧
    (mixRound (Working.ofDigest iv) roundK[0] 0x61626380#32).e = 0xfa2a4622#32 := by decide

theorem test_hex_abc : (hexDigest false #v[0xba7816bf#32, 0#32, 0#32, 0#32, 0#32, 0#32, 0#32, 0#32]).take 8 =
    ['b', 'a', '7', '8', '1', '6', 'b', 'f'] := by decide

/-! ### One step each: V27 -/

/-- V27 a. -/
theorem test_nop : seen (fun s => s.engine) (step (State.reset.withFetchWord 32 0x00000000)) = some Engine.reset := by
  decide

/-- V27 n. -/
theorem test_nop_busy : exec .nop (at_ busy []) = .next (at_ busy []) := rfl

/-- V27 b, k. -/
theorem test_init : seen (fun s => (s.engine.h, s.engine.status)) (exec .init (at_ failed [])) =
    some (iv, 0x00000002#32) := by decide

/-- V27 l. -/
theorem test_init_busy : seen (fun s => (s.engine.status, s.engine.pend)) (exec .init (at_ busy [])) =
    some (0x00000011#32, busy.pend) := by decide

/-- V27 u. -/
theorem test_compress : seen (fun s => (s.engine.status, s.engine.pend, s.engine.vars.a))
    (step (State.reset.withFetchWord 32 0x00000022)) = some (0x00000001#32, [Engine.reset.blk], 0x6a09e667#32) := by
  decide

/-- V27 i. -/
theorem test_compress_dropped : seen (fun s => (s.engine.status, s.engine.pend)) (exec .compress (at_ failed [])) =
    some (0x00000030#32, []) := by decide

/-- V27 t: bit 11 set, byte 3 ignored. -/
theorem test_padLast : seen (fun s => (s.engine.status, s.engine.pend))
    (step ((at_ { withLen 3 with blk := abcBlk } []).withFetchWord 32 0x00000833)) =
      some (0x00000001#32, [((Vector.replicate 16 0#32).set 0 0x61626380#32).set 15 0x00000018#32]) := by
  decide

/-- V27 c, d, f: EMPTY, TAIL, and EMPTY before TAIL. -/
theorem test_padLast_errors : seen (fun s => s.engine.status) (exec (.padLast 3) (at_ Engine.reset [])) =
      some 0x00000030#32 ∧
    seen (fun s => s.engine.status) (exec (.padLast 65) (at_ { ready with msgLen := 1#64 } [])) =
      some 0x00000042#32 ∧
    seen (fun s => s.engine.status) (exec (.padLast 65) (at_ ready [])) = some 0x00000032#32 := by
  decide

/-- V27 g, j. -/
theorem test_reserved4to7 : seen (fun s => s.engine.status) (exec (.reserved4to7 7) (at_ ready [])) =
      some 0x00000022#32 ∧
    seen (fun s => s.engine.status) (exec (.reserved4to7 7) (at_ failed [])) = some 0x00000030#32 := by
  decide

/-- V27 h and m, for the other row. -/
theorem test_reserved8toF : seen (fun s => s.engine.status) (exec (.reserved8toF 15) (at_ ready [])) =
      some 0x00000022#32 ∧
    seen (fun s => s.engine.status) (exec (.reserved8toF 8) (at_ busy [])) = some 0x00000011#32 := by
  decide

/-- V27 o, p: writes of H and BLK while busy. -/
theorem test_writes_while_busy : seen (fun s => (s.engine.status, s.engine.h[3]))
      (step (at_ busy [.wr 0x2C 0x12345678#32] [1])) = some (0x00000011#32, iv[3]) ∧
    seen (fun s => (s.engine.status, s.engine.blk[0], s.engine.pend)) (step (at_ busy [.wr 0x40 0x12345678#32] [1])) =
      some (0x00000001#32, 0x12345678#32, busy.pend) := by
  decide

/-- V27 q, r, s. -/
theorem test_status_write_and_zero_reads :
    seen (fun s => s.engine) (step (at_ ready [.wr 0x04 0xffffffff#32])) = some ready ∧
    seen (fun s => s.host.reads) (step (at_ ready [.rd 0x00])) = some [(0x00, 0#32)] ∧
    seen (fun s => s.host.reads) (step (at_ ready [.rd 0xFC])) = some [(0xFC, 0#32)] := by
  decide

/-- The engine moves when its number of host steps is used up, and the host before. -/
theorem test_turns : (at_ busy [.rd 0x04] [0]).mover = .engine ∧ (at_ busy [.rd 0x04] [1]).mover = .host (.rd 0x04) [] ∧
    (at_ busy []).mover = .engine := by decide

/-! ### Witnesses: states and operands that meet the hypotheses of the obligations -/

theorem witness_DecodeInvertsEncodeWhateverIsIgnored : (Instr.padLast 127).WF ∧ (Instr.reserved4to7 4).WF ∧
    (Instr.reserved8toF 15).WF ∧ Instr.nop.WF := by decide

theorem witness_IgnoredBitsDoNotMatter :
    (0x00000833#32).toNat % 16 = (0x00000033#32).toNat % 16 ∧
    (0x00000833#32).toNat / 16 % 128 = (0x00000033#32).toNat / 16 % 128 ∧
    (0x000007F2#32).toNat % 16 = (0x00000002#32).toNat % 16 ∧ (0x00000002#32).toNat % 16 ≠ 3 := by decide

theorem witness_NopChangesNothing : (0x000007F0#32).toNat % 16 = 0 := by decide

theorem witness_InitLoadsTheInitialDigest : (0xFFFFFFF1#32).toNat % 16 = 1 ∧ (at_ failed []).engine.phase = .idle ∧
    (at_ failed []).engine.err ≠ 0#4 ∧ (at_ busy []).engine.phase = .run ∧ Instr.compress ≠ .init := by decide

/-- Also for CompressFinishesWithItsDigest. -/
theorem witness_CompressIsAccepted : (at_ ready []).engine.phase = .idle ∧ (at_ ready []).engine.err = 0#4 := by
  decide

/-- Also for PadLastFinishesWithItsDigest, with both of its step counts. -/
theorem witness_PadLastIsAccepted : (at_ (withLen 1) []).engine.phase = .idle ∧ (at_ (withLen 1) []).engine.err = 0#4 ∧
    (at_ (withLen 1) []).engine.msgLen ≠ 0#64 ∧ 0 ≤ 64 ∧ 55 < 56 ∧ ¬ 56 < 56 ∧ 64 ≤ 64 := by decide

theorem witness_PadLastOfEmptyMessageRaisesEmpty : (at_ ready []).engine.phase = .idle ∧
    (at_ ready []).engine.err = 0#4 ∧ (at_ ready []).engine.msgLen = 0#64 ∧
    seen (fun s => s.engine.err) (exec (.padLast 3) (at_ ready [])) = some 0x3#4 := by decide

theorem witness_PadLastOfLongTailRaisesTail : (at_ (withLen 1) []).engine.phase = .idle ∧
    (at_ (withLen 1) []).engine.err = 0#4 ∧ (at_ (withLen 1) []).engine.msgLen ≠ 0#64 ∧ 65 ≤ 65 ∧ 127 ≤ 127 := by
  decide

theorem witness_ReservedOpcodesRaiseBadOp : 4 ≤ (0x00000004#32).toNat % 16 ∧ 4 ≤ (0x0000000F#32).toNat % 16 := by decide

theorem witness_WritesWhileBusyRaiseBusy : (at_ busy []).engine.phase = .run ∧ (0x00000001#32).toNat % 16 ≠ 0 ∧ 0 < 8 ∧
    7 < 8 := by decide

theorem witness_StickyErrorDropsLaterCommands : (at_ failed []).engine.phase = .idle ∧
    (at_ failed []).engine.err ≠ 0#4 := by decide

theorem witness_EngineNeverWritesBlkOrMsgLen : (seen (fun s => s.engine.pend) (exec .compress (at_ ready []))).isSome = true := by
  decide

/-- The engine that has done all 64 rounds of its block. -/
def atFeedback : Engine := { busy with t := 64 }

/-- The four ways in which H changes: a feedback, INIT, a write of H, reset. -/
theorem witness_DigestChangesOnlyWhereAllowed :
    let changed := { Engine.reset with h := Vector.replicate 8 0#32 }
    ((seen (fun s => s.engine.h) (step (at_ atFeedback []))).map (fun h => decide (h ≠ iv))) = some true ∧
    seen (fun s => s.engine.h) (step (at_ changed [.wr 0x00 1#32])) = some iv ∧
    seen (fun s => s.engine.h) (step (at_ Engine.reset [.wr 0x3C 1#32])) = some (iv.set 7 1#32) ∧
    seen (fun s => s.engine.h) (step (at_ changed [.reset])) = some iv := by decide

/-- A next state of every kind of mover, for the statements whose one hypothesis is a step that answers one
(DoneFollowsItsRule, StepsInterleaveHostAndEngine, EveryStepKeepsTheInvariant). -/
theorem witness_StepAnswersNext : (seen (fun s => s.engine.done) (step (at_ atFeedback []))) = some true ∧
    seen (fun s => s.engine.done) (step (at_ Engine.reset [.wr 0x00 1#32])) = some true ∧
    seen (fun s => s.engine.done) (step (at_ ready [.wr 0x00 2#32])) = some false ∧
    seen (fun s => s.engine.done) (step (at_ ready [.reset])) = some false ∧
    seen (fun s => s.host.todo) (step (at_ busy [.poll] [1])) = some [.poll] ∧
    seen (fun s => s.host.todo) (step (at_ ready [.poll])) = some [] ∧
    seen (fun s => s.engine.done) (step (at_ ready [])) = some true := by decide

theorem witness_ErrorIsClearedOnlyByInitAndReset : failed.err ≠ 0#4 ∧ (1#32).toNat % 16 = 1 ∧
    seen (fun s => s.engine.err) (step (at_ failed [.wr 0x00 1#32])) = some 0#4 ∧
    (at_ failed [.wr 0x00 1#32]).mover = .host (.wr 0x00 1#32) [] ∧
    seen (fun s => s.engine.err) (step (at_ failed [.reset])) = some 0#4 ∧
    (at_ failed [.reset]).mover = .host .reset [] ∧
    seen (fun s => s.engine.err) (step (at_ failed [.wr 0x04 0#32])) = some 0x3#4 := by decide

/-- The offsets at the ends of every range of R51. -/
def edgeOffsets : List Nat := [0x00, 0x04, 0x08, 0x0C, 0x10, 0x1C, 0x20, 0x3C, 0x40, 0x7C, 0x80, 0xFC]

/-- For HostReadReturnsAndChangesNothing. -/
theorem witness_HostRead : ∀ off ∈ edgeOffsets, (at_ ready [.rd off]).mover = .host (.rd off) [] ∧ off < 256 ∧
    off % 4 = 0 := by decide

/-- For HostWriteDoesItsCase, idle and busy. -/
theorem witness_HostWrite : ∀ off ∈ edgeOffsets, (at_ ready [.wr off 5#32]).mover = .host (.wr off 5#32) [] ∧
    (at_ busy [.wr off 5#32] [1]).mover = .host (.wr off 5#32) [] ∧ off < 256 ∧ off % 4 = 0 := by decide

theorem witness_ReservedOffsets : ∀ off ∈ [0x10, 0x1C, 0x80, 0xFC], off % 4 = 0 ∧
    ((0x10 ≤ off ∧ off ≤ 0x1C) ∨ (0x80 ≤ off ∧ off ≤ 0xFC)) := by decide

theorem witness_OtherWidthsAndMisalignedAreRefused :
    (at_ ready [.nonWord 0x40 .bits8]).mover = .host (.nonWord 0x40 .bits8) [] ∧
    (at_ ready [.rd 0xFF]).mover = .host (.rd 0xFF) [] ∧ 0xFF < 256 ∧ 0xFF % 4 ≠ 0 ∧
    (at_ ready [.wr 0x01 0#32]).mover = .host (.wr 0x01 0#32) [] ∧ 0x01 % 4 ≠ 0 := by decide

theorem witness_OutsideTheWindowFaults : (at_ ready [.rd 256]).mover = .host (.rd 256) [] ∧ 256 ≤ 256 ∧
    (at_ ready [.wr 260 0#32]).mover = .host (.wr 260 0#32) [] := by decide

theorem witness_PollReadsStatusUntilNotBusy : (at_ ready [.poll]).mover = .host .poll [] ∧
    (at_ busy [.poll] [1]).mover = .host .poll [] := by decide

/-- For WriteThenReadReturnsTheValue, at the ends of its four ranges. -/
theorem witness_WriteThenRead : ready.phase = .idle ∧
    (∀ off ∈ [0x08, 0x0C, 0x20, 0x3C, 0x40, 0x7C], off % 4 = 0 ∧
      (off = 0x08 ∨ off = 0x0C ∨ (0x20 ≤ off ∧ off < 0x40) ∨ (0x40 ≤ off ∧ off < 0x80)) ∧
      seen (fun s => s.engine.read off) ((at_ ready []).hostWrite off 5#32) = some 5#32) := by decide

theorem witness_StepRunsTheDecodedCommand : (at_ ready [.wr 0x00 0x33#32]).mover = .host (.wr 0x00 0x33#32) [] ∧
    (at_ busy [.wr 0x00 0#32] [1]).mover = .host (.wr 0x00 0#32) [] ∧ 0xFFFFFFFF < 2 ^ 32 := by decide

theorem witness_EitherAgentMayMoveNext : (at_ busy [.poll]).engine.phase = .run ∧
    (at_ busy [.poll]).host.todo = .poll :: [] := by decide

theorem witness_ResetGivesTheResetValues : (at_ busy [.reset, .poll] [1]).mover = .host .reset [.poll] := by
  decide

theorem witness_RoundStepDoesOneRound : busy.t.val < 64 ∧ ({ busy with t := 63 } : Engine).t.val < 64 ∧
    16 ≤ ({ busy with t := 16 } : Engine).t.val := by decide

theorem witness_FeedbackStepEndsOrLoadsNext : atFeedback.t.val = 64 ∧ atFeedback.pend.tail = [] ∧
    ({ atFeedback with pend := [aBlk, abcBlk] } : Engine).pend.tail = abcBlk :: [] := by decide

/-- The busy engine holds the invariant: it has just loaded its block. -/
theorem witness_Inv_idle : (at_ ready []).Inv where
  err_produced := by decide
  pend_bounded := by decide
  idle_empty := fun _ => rfl
  run_not_done := fun h => by cases h
  run_holds := fun h => by cases h

theorem witness_Inv_run : (at_ busy [.poll]).Inv where
  err_produced := by decide
  pend_bounded := by decide
  idle_empty := fun h => by cases h
  run_not_done := fun _ => rfl
  run_holds := fun _ => by
    refine ⟨Engine.reset.blk, [], rfl, by decide, ?_⟩
    have h : ∀ j : Fin 16, busy.w[j.val] = (schedule Engine.reset.blk)[j.val] := by decide
    intro j hj hlt
    exact h ⟨j, by rcases hlt with hlt | hlt; exact hlt; exact absurd hlt (by simp [at_, busy, Engine.compressBlk, Engine.startRun, Engine.loadBlock])⟩

/-- With witness_Inv_run, all the hypotheses of BlockIsCompressedWhateverTheHostDoes (for a run of no step, and of
the engine's next one), and of RunningCommandFinishes. -/
theorem witness_BlockIsCompressed : (at_ busy [.poll]).noReset ∧ (at_ busy [.poll]).legalTodo ∧
    (at_ busy [.poll]).engine.phase = .run ∧ (at_ busy [.poll]).engine.pend = Engine.reset.blk :: [] ∧
    core.run 0 (at_ busy [.poll]) = .next (at_ busy [.poll]) ∧
    seen (fun s => s.engine.pend) (core.run 1 (at_ busy [])) = some [Engine.reset.blk] := by
  refine ⟨by simp [State.noReset, at_], ?_, rfl, rfl, rfl, by decide⟩
  intro op h
  rw [show (at_ busy [.poll]).host.todo = [.poll] from rfl, List.mem_singleton] at h
  rw [h]
  rfl

/-- Two idle engines that differ in every hidden register. -/
theorem witness_HiddenStateIsNeverObserved :
    SameVisible ready { ready with t := 5, vars := Working.ofDigest iv, w := roundK } where
  h_eq := rfl
  blk_eq := rfl
  msgLen_eq := rfl
  err_eq := rfl
  done_eq := rfl
  phase_eq := rfl
  pend_eq := rfl
  t_eq := fun h => by cases h
  vars_eq := fun h => by cases h
  w_eq := fun h => by cases h

theorem witness_InstancesAreIndependent :
    ({ instances := [at_ ready [], at_ busy []] } : Platform).stepAt 0 =
      .next { instances := [at_ ready [], at_ busy []] } ∧
    ({ instances := [at_ ready [], at_ busy []] } : Platform).instances[0]? = some (at_ ready []) ∧ 1 ≠ 0 :=
  ⟨rfl, rfl, by decide⟩

theorem witness_BytesPastTheTailDoNotMatter : 3 ≤ 64 ∧ ∀ k : Fin 64, k.val < 3 →
    blkByte abcBlk k = blkByte (abcBlk.set 1 7#32) k := by decide

theorem witness_TrailerFillsTheLastTwoWords : (padLastBlocks aBlk 55 1#64).getLast?.isSome = true ∧
    (padLastBlocks aBlk 56 1#64).getLast?.isSome = true ∧ (padLastBlocks aBlk 64 1#64).getLast?.isSome = true := by
  decide

theorem witness_PaddedTailHasItsLayout : (List.replicate 55 0x61#8).length ≤ 64 ∧
    (List.replicate 56 0x61#8).length ≤ 64 ∧ (List.replicate 64 0x61#8).length ≤ 64 := by decide

theorem witness_PaddedMessageHasItsLayout : 1 ≤ (List.replicate 1 0x61#8).length := by decide

/-- For RotateRightMovesEachBit, ShiftChooseMajorityBits and SigmaGammaBits. -/
theorem witness_BitIndexes : 0 < 32 ∧ 31 < 32 := by decide

theorem witness_ScheduleFollowsItsRecurrence : 15 < 16 ∧ 16 ≤ 16 ∧ 63 < 64 ∧ 16 ≤ 63 := by decide

theorem witness_HashCommandsFoldThePaddedMessage : 1 ≤ (List.replicate 64 0x61#8).length ∧
    (List.replicate 64 0x61#8).length < 2 ^ 61 ∧ (at_ ready []).engine.phase = .idle := by decide

/-! ### Whole compressions, last because their checks are the longest: V1, V26 -/

theorem test_digest_abc : compressAll iv (padLastBlocks abcBlk 3 3#64) =
    #v[0xba7816bf#32, 0x8f01cfea#32, 0x414140de#32, 0x5dae2223#32, 0xb00361a3#32, 0x96177a9c#32, 0xb410ff61#32,
      0xf20015ad#32] := by decide +kernel

theorem test_compress_zero : compress (Vector.replicate 8 0#32) (Vector.replicate 16 0#32) =
    #v[0x7ca51614#32, 0x425c3ba8#32, 0xce54dd2f#32, 0xc2020ae7#32, 0xb6e574d1#32, 0x98136d0f#32, 0xae7e26cc#32,
      0xbf0be7a6#32] := by decide +kernel

theorem test_schedule_abc : (schedule (((Vector.replicate 16 0#32).set 0 0x61626380#32).set 15 0x18#32))[63] =
    0x12b1edeb#32 := by decide +kernel

end Sys2Proof.Tests
end

