-- ==== Sys2Proof/Proofs/HiddenState.lean ====
section
/-! Two states that differ in hidden registers alone look the same to the host, and every step keeps that. Each
operation of the engine gets one congruence lemma; the step and the run follow. -/

namespace Sys2Proof.Machine

open Sys2Proof.Statements

/-! ### Engines that differ in hidden registers alone -/

theorem sameVisible_refl (e : Engine) : SameVisible e e :=
  ⟨rfl, rfl, rfl, rfl, rfl, rfl, rfl, fun _ => rfl, fun _ => rfl, fun _ _ _ _ => rfl⟩

/-- STATUS is made of visible fields (R24). -/
theorem status_congr {e u : Engine} (h : SameVisible e u) : e.status = u.status := by
  simp only [Engine.status, Engine.busy, h.err_eq, h.done_eq, h.phase_eq]

/-- No register of the window shows hidden state (R51). -/
theorem read_congr {e u : Engine} (h : SameVisible e u) (off : Nat) : e.read off = u.read off := by
  unfold Engine.read Engine.readRegister
  cases registerAt off with
  | cmd => rfl
  | status => exact status_congr h
  | msgLenLo => simp only [h.msgLen_eq]
  | msgLenHi => simp only [h.msgLen_eq]
  | h i => simp only [h.h_eq]
  | blk j => simp only [h.blk_eq]
  | reserved => rfl

theorem raise_congr {e u : Engine} (h : SameVisible e u) (c : ErrCode) : SameVisible (e.raise c) (u.raise c) := by
  rw [Engine.raise_eq, Engine.raise_eq]
  exact { h with err_eq := by simp only [h.err_eq] }

theorem whenIdle_congr {e u : Engine} (h : SameVisible e u) (act : Engine → Engine)
    (hact : e.phase = .idle → SameVisible (act e) (act u)) : SameVisible (e.whenIdle act) (u.whenIdle act) := by
  cases hp : e.phase with
  | idle =>
    rw [e.whenIdle_idle act hp, u.whenIdle_idle act (h.phase_eq ▸ hp)]
    exact hact hp
  | run =>
    rw [e.whenIdle_run act hp, u.whenIdle_run act (h.phase_eq ▸ hp)]
    exact raise_congr h .busy

theorem whenNoError_congr {e u : Engine} (h : SameVisible e u) (act : Engine → Engine)
    (hact : SameVisible (act e) (act u)) : SameVisible (e.whenNoError act) (u.whenNoError act) := by
  unfold Engine.whenNoError
  rw [h.err_eq]
  split
  · exact hact
  · exact h

/-- A block load overwrites every hidden register that a running engine can come to read (R148): the hidden state
from before it need not agree. -/
theorem loadBlock_congr {e u : Engine} (hh : e.h = u.h) (hblk : e.blk = u.blk) (hlen : e.msgLen = u.msgLen)
    (herr : e.err = u.err) (hdone : e.done = u.done) (hphase : e.phase = u.phase) (hpend : e.pend = u.pend)
    (b : Block) : SameVisible (e.loadBlock b) (u.loadBlock b) where
  h_eq := hh
  blk_eq := hblk
  msgLen_eq := hlen
  err_eq := herr
  done_eq := hdone
  phase_eq := hphase
  pend_eq := hpend
  t_eq _ := rfl
  vars_eq _ := congrArg Working.ofDigest hh
  w_eq _ j hj hwritten := by
    have hlow : j < 16 := hwritten.resolve_right (Nat.not_lt_zero j)
    simp only [Engine.loadBlock_w, loadSchedule_get, dif_pos hlow]

theorem startRun_congr {e u : Engine} (h : SameVisible e u) (b : Block) (bs : List Block) :
    SameVisible (e.startRun b bs) (u.startRun b bs) :=
  loadBlock_congr (e := { e with pend := b :: bs, phase := .run, done := false })
    (u := { u with pend := b :: bs, phase := .run, done := false })
    h.h_eq h.blk_eq h.msgLen_eq h.err_eq rfl rfl rfl b

theorem padLastChecked_congr {e u : Engine} (h : SameVisible e u) (len : Nat) :
    SameVisible (e.padLastChecked len) (u.padLastChecked len) := by
  unfold Engine.padLastChecked Engine.padLastRun
  rw [h.msgLen_eq, h.blk_eq]
  split
  · exact raise_congr h .empty
  · split
    · exact raise_congr h .tail
    · split
      · exact h
      · exact startRun_congr h _ _

/-- INIT writes visible registers only (R162). -/
theorem initDigest_congr {e u : Engine} (h : SameVisible e u) : SameVisible e.initDigest u.initDigest :=
  { h with h_eq := rfl, err_eq := rfl, done_eq := rfl }

/-- COMPRESS takes its block from the block buffer, which is visible (R163). -/
theorem compressBlk_congr {e u : Engine} (h : SameVisible e u) : SameVisible e.compressBlk u.compressBlk := by
  unfold Engine.compressBlk
  rw [h.blk_eq]
  exact startRun_congr h _ _

theorem rejectOpcode_congr {e u : Engine} (h : SameVisible e u) : SameVisible e.rejectOpcode u.rejectOpcode :=
  whenIdle_congr h (fun e => e.raise .badOp) fun _ => raise_congr h .badOp

theorem commandEffect_congr {e u : Engine} (h : SameVisible e u) (i : Instr) :
    SameVisible (commandEffect i e) (commandEffect i u) := by
  cases i with
  | nop => exact h
  | init => exact whenIdle_congr h _ fun _ => initDigest_congr h
  | compress =>
    exact whenIdle_congr h (fun e => e.whenNoError Engine.compressBlk) fun _ =>
      whenNoError_congr h _ (compressBlk_congr h)
  | padLast len =>
    exact whenIdle_congr h (fun e => e.whenNoError fun e => e.padLastChecked len) fun _ =>
      whenNoError_congr h (fun e => e.padLastChecked len) (padLastChecked_congr h len)
  | reserved4to7 op => exact rejectOpcode_congr h
  | reserved8toF op => exact rejectOpcode_congr h

theorem writeRegister_congr {e u : Engine} (h : SameVisible e u) (r : Register) (v : Word) :
    SameVisible (e.writeRegister r v) (u.writeRegister r v) := by
  cases r with
  | cmd => exact h
  | status => exact h
  | msgLenLo =>
    exact { h with msgLen_eq := by simp only [Engine.writeRegister, Engine.writeMsgLenLo_msgLen, h.msgLen_eq] }
  | msgLenHi =>
    exact { h with msgLen_eq := by simp only [Engine.writeRegister, Engine.writeMsgLenHi_msgLen, h.msgLen_eq] }
  | h i =>
    exact whenIdle_congr h (fun e => { e with h := e.h.set i v }) fun _ => { h with h_eq := by simp only [h.h_eq] }
  | blk j => exact { h with blk_eq := by simp only [Engine.writeRegister, Engine.writeBlk_blk, h.blk_eq] }
  | reserved => exact h

theorem hostWrite_congr {e u : Engine} (h : SameVisible e u) (off : Nat) (v : Word) :
    SameVisible (e.hostWrite off v) (u.hostWrite off v) := by
  unfold Engine.hostWrite
  split
  · exact commandEffect_congr h (decode v)
  · exact writeRegister_congr h _ v

/-! ### The engine's own steps -/

/-- The word `W[t]` that a round computes depends on words already written only (R142), so the words written so far
stay equal. -/
theorem extendSchedule_congr {w w' : MsgSchedule} {t : Nat} (ht : t < 64)
    (h : ∀ (j : Nat) (hj : j < 64), j < 16 ∨ j < t → w[j] = w'[j]) (j : Nat) (hj : j < 64)
    (hwritten : j < 16 ∨ j < t + 1) : (extendSchedule w t ht)[j] = (extendSchedule w' t ht)[j] := by
  by_cases hjt : j = t
  · subst hjt
    by_cases lo : 16 ≤ j
    · rw [extendSchedule_get_self w j lo, extendSchedule_get_self w' j lo, h (j - 2) _ (.inr (by omega)),
        h (j - 7) _ (.inr (by omega)), h (j - 15) _ (.inr (by omega)), h (j - 16) _ (.inr (by omega))]
    · rw [extendSchedule_below w j (by omega), extendSchedule_below w' j (by omega)]
      exact h j hj (.inl (by omega))
  · rw [extendSchedule_get_ne w t j ht hj hjt, extendSchedule_get_ne w' t j ht hj hjt]
    exact h j hj (by omega)

theorem roundStep_congr {e u : Engine} (h : SameVisible e u) (hr : e.phase = .run) (he : e.t.val < 64)
    (hu : u.t.val < 64) : SameVisible (e.roundStep he) (u.roundStep hu) := by
  have ht := h.t_eq hr
  have hw := extendSchedule_congr he (h.w_eq hr)
  simp only [ht] at hw
  refine { h with t_eq := fun _ => ?_, vars_eq := fun _ => ?_, w_eq := fun _ j hj hwritten => ?_ }
  · simp only [Engine.roundStep_t, ht]
  · simp only [Engine.roundStep_vars, h.vars_eq hr, ht]
    rw [hw _ hu (.inr (Nat.lt_succ_self _))]
  · simp only [Engine.roundStep_w, ht]
    exact hw j hj (by simpa only [Engine.roundStep_t, ht] using hwritten)

/-- The feedback reads the working variables of a running engine, which are visible then (R150). -/
theorem feedbackStep_congr {e u : Engine} (h : SameVisible e u) (hr : e.phase = .run) :
    SameVisible e.feedbackStep u.feedbackStep := by
  have hh : feedback e.h e.vars = feedback u.h u.vars := by rw [h.h_eq, h.vars_eq hr]
  cases hb : e.pend.tail with
  | nil =>
    rw [e.feedbackStep_last hb, u.feedbackStep_last (h.pend_eq ▸ hb)]
    exact ⟨hh, h.blk_eq, h.msgLen_eq, h.err_eq, rfl, rfl, rfl, nofun, nofun, nofun⟩
  | cons b bs =>
    rw [e.feedbackStep_next b bs hb, u.feedbackStep_next b bs (h.pend_eq ▸ hb)]
    exact loadBlock_congr (e := { e with h := feedback e.h e.vars, pend := b :: bs })
      (u := { u with h := feedback u.h u.vars, pend := b :: bs })
      hh h.blk_eq h.msgLen_eq h.err_eq h.done_eq h.phase_eq rfl b

theorem engineStep_congr {e u : Engine} (h : SameVisible e u) (hr : e.phase = .run) : SameVisible e.step u.step := by
  have ht := congrArg Fin.val (h.t_eq hr)
  unfold Engine.step
  by_cases he : e.t.val < 64
  · rw [dif_pos he, dif_pos (ht ▸ he)]
    exact roundStep_congr h hr he _
  · rw [dif_neg he, dif_neg (ht ▸ he)]
    exact feedbackStep_congr h hr

/-! ### The machine -/

/-- Two states of the machine that differ in hidden registers of the engine alone. -/
structure State.LooksLike (s u : State) : Prop where
  engine : SameVisible s.engine u.engine
  host : s.host = u.host
  turns : s.turns = u.turns

theorem sameOutcome_next {s u : State} (h : s.LooksLike u) : SameOutcome (.next s) (.next u) :=
  ⟨h.engine, h.host, h.turns⟩

/-- Outcomes that agree are two next states, or the same stop. -/
theorem sameOutcome_cases {x y : Host.Outcome State Fault Refusal} (h : SameOutcome x y) :
    (∃ s u, x = .next s ∧ y = .next u ∧ s.LooksLike u) ∨ (∃ r, x = .fault r ∧ y = .fault r) ∨
    (∃ r, x = .refused r ∧ y = .refused r) := by
  unfold SameOutcome at h
  split at h
  · obtain ⟨hengine, hhost, hturns⟩ := h
    exact .inl ⟨_, _, rfl, rfl, hengine, hhost, hturns⟩
  · exact .inr (.inl ⟨_, rfl, h ▸ rfl⟩)
  · exact .inr (.inr ⟨_, rfl, h ▸ rfl⟩)
  · exact h.elim

/-- Whether an access is legal does not depend on the state (R52). -/
theorem checkOffset_congr (off : Nat) {x y : Host.Outcome State Fault Refusal} (h : SameOutcome x y) :
    SameOutcome (checkOffset off x) (checkOffset off y) := by
  unfold checkOffset
  split
  · exact rfl
  · split
    · exact rfl
    · exact h

theorem hostStep_congr {s u : State} (h : s.LooksLike u) (op : HostOp) (rest : List HostOp) :
    SameOutcome (s.hostStep op rest) (u.hostStep op rest) := by
  cases op with
  | rd off =>
    refine checkOffset_congr off (sameOutcome_next ⟨h.engine, ?_, h.turns⟩)
    simp [h.host, read_congr h.engine]
  | wr off v =>
    refine checkOffset_congr off ?_
    rw [State.hostWrite_eq, State.hostWrite_eq]
    exact sameOutcome_next ⟨hostWrite_congr h.engine off v, by simp [h.host], h.turns⟩
  | poll =>
    refine sameOutcome_next ⟨by simpa using h.engine, ?_, by simpa using h.turns⟩
    simp [h.host, status_congr h.engine, read_congr h.engine]
  | nonWord off width => exact rfl
  | reset => exact sameOutcome_next ⟨sameVisible_refl _, by simp [h.host], h.turns⟩

theorem countHostStep_congr {s u : State} (h : s.LooksLike u) : s.countHostStep.LooksLike u.countHostStep where
  engine := by simpa using h.engine
  host := by simpa using h.host
  turns := by
    unfold State.countHostStep
    rw [h.engine.phase_eq]
    split
    · exact h.turns
    · simp only [h.turns]

/-- Who moves next is decided by the phase, the host's list and the interleaving alone (R59). -/
theorem mover_congr {s u : State} (h : s.LooksLike u) : s.mover = u.mover := by
  unfold State.mover
  rw [h.engine.phase_eq, h.host, h.turns]

theorem step_congr {s u : State} (h : s.LooksLike u) : SameOutcome (step s) (step u) := by
  unfold step
  rw [← mover_congr h]
  cases hm : s.mover with
  | engine =>
    refine sameOutcome_next ⟨engineStep_congr h.engine (State.mover_engine hm), h.host, ?_⟩
    simp only [State.engineStep_turns, h.turns]
  | host op rest => exact hostStep_congr (countHostStep_congr h) op rest
  | nobody => exact sameOutcome_next h

theorem run_congr {s u : State} (h : s.LooksLike u) (n : Nat) : SameOutcome (core.run n s) (core.run n u) := by
  induction n generalizing s u with
  | zero => exact sameOutcome_next h
  | succ n ih =>
    rcases sameOutcome_cases (step_congr h) with ⟨s', u', hs, hu, h'⟩ | ⟨r, hs, hu⟩ | ⟨r, hs, hu⟩
    · rw [run_succ_next n hs, run_succ_next n hu]
      exact ih h'
    · rw [run_succ_fault n hs, run_succ_fault n hu]
      exact rfl
    · rw [run_succ_refused n hs, run_succ_refused n hu]
      exact rfl

/-- Two running engines, at their first round, that look the same and differ in a schedule word not written yet. -/
theorem sameVisible_running_witness :
    let e := Engine.reset.compressBlk
    let u := { e with w := loadSchedule e.blk roundK }
    e.phase = .run ∧ SameVisible e u ∧ e.w[16] ≠ u.w[16] :=
  ⟨rfl, loadBlock_congr (e := { Engine.reset.compressBlk with w := Vector.replicate 64 0#32 })
    (u := { Engine.reset.compressBlk with w := roundK }) rfl rfl rfl rfl rfl rfl rfl Engine.reset.blk, by decide⟩

/-- Settles O41: looking alike is kept by every step, and so by every run, by induction on its length. -/
theorem hiddenStateIsNeverObserved : Obligations.HiddenStateIsNeverObserved :=
  fun _ _ n hengine hhost hturns => run_congr ⟨hengine, hhost, hturns⟩ n

end Sys2Proof.Machine
end

