-- ==== Sys2Proof/Proofs/DigestChanges.lean ====
section
/-! Where the digest state `H` can change: the commands, the host writes, the engine's steps, and then the step. -/

namespace Sys2Proof.Machine

/-- The opcode field is the command word modulo 16 (R70, R71). -/
theorem opField_toNat (v : Word) : (opField v).toNat = v.toNat % 16 := by
  simp [opField]

/-- The command words of INIT are those with opcode 1 (R71). -/
theorem decode_eq_init_iff (v : Word) : decode v = .init ↔ v.toNat % 16 = 1 := by
  simp only [decode, opField_toNat]
  repeat' split
  all_goals simp [*]

/-- The only command that writes `H` is INIT, performed while idle; the others leave `H` to the engine's
steps (R162 to R165). -/
theorem commandEffect_h_cases (i : Instr) (e : Engine) :
    (commandEffect i e).h = e.h ∨ (i = .init ∧ e.phase = .idle ∧ (commandEffect i e).h = iv) := by
  rcases commandEffect_cases i e with h | ⟨c, h⟩ | ⟨hi, hp, h⟩ | ⟨-, -, b, bs, h, -⟩
  · exact .inl (by rw [h])
  · exact .inl (by rw [h, Engine.raise_h])
  · exact .inr ⟨hi, hp, by rw [h, Engine.initDigest_h]⟩
  · exact .inl (by rw [h, Engine.startRun_h])

/-- A host write changes `H` only while idle: INIT at CMD, or the one word written (R55). -/
theorem Engine.hostWrite_h_cases (e : Engine) (off : Nat) (v : Word) (ha : off % 4 = 0) :
    (e.hostWrite off v).h = e.h ∨
    (e.phase = .idle ∧ off = 0x00 ∧ v.toNat % 16 = 1 ∧ (e.hostWrite off v).h = iv) ∨
    (e.phase = .idle ∧ ∃ i : Fin 8, off = 0x20 + 4 * i.val ∧ (e.hostWrite off v).h = e.h.set i v) := by
  rcases e.hostWrite_cases off v with ⟨h0, h⟩ | ⟨-, h⟩ | ⟨-, h⟩ | ⟨i, hr, hp, h⟩ | ⟨i, -, -, h⟩ | ⟨j, -, h⟩ | ⟨-, h⟩
  · rcases commandEffect_h_cases (decode v) e with hc | ⟨hi, hp, hc⟩
    · exact .inl (by rw [h, hc])
    · exact .inr (.inl ⟨hp, h0, (decode_eq_init_iff v).1 hi, by rw [h, hc]⟩)
  · exact .inl (by rw [h, Engine.writeMsgLenLo_h])
  · exact .inl (by rw [h, Engine.writeMsgLenHi_h])
  · exact .inr (.inr ⟨hp, i, registerAt_eq_h off i ha hr, by rw [h]⟩)
  · exact .inl (by rw [h, Engine.raise_h])
  · exact .inl (by rw [h, Engine.writeBlk_h])
  · exact .inl (by rw [h])

/-- An engine step changes `H` only at the counter 64, by the feedback (R149, R150). -/
theorem Engine.step_h_cases (e : Engine) :
    e.step.h = e.h ∨ (e.t.val = 64 ∧ e.step.h = feedback e.h e.vars) := by
  rcases e.step_cases with ⟨ht, h⟩ | ⟨ht, h⟩
  · exact .inl (by rw [h, Engine.roundStep_h])
  · exact .inr ⟨ht, by rw [h, Engine.feedbackStep_h]⟩

/-- Settles O18: the cases of a step, each with what it does to `H`. -/
theorem digestChangesOnlyWhereAllowed : Obligations.DigestChangesOnlyWhereAllowed := by
  intro s s' hstep hne
  rcases step_cases hstep with ⟨hm, rfl⟩ | ⟨op, rest, hm, hhost⟩ | ⟨-, rfl⟩
  · rcases s.engine.step_h_cases with h | ⟨ht, h⟩
    · exact absurd h hne
    · exact .inl ⟨hm, State.mover_engine hm, ht, h⟩
  · rcases State.hostStep_cases hhost with
      ⟨off, rfl, -, -, rfl⟩ | ⟨off, v, rfl, -, ha, rfl⟩ | ⟨rfl, rfl⟩ | ⟨rfl, rfl⟩
    · exact absurd (by simp) hne
    · simp only [State.setEngine_engine, State.countHostStep_engine] at hne ⊢
      rcases s.engine.hostWrite_h_cases off v ha with h | ⟨hp, rfl, hv, h⟩ | ⟨hp, i, rfl, h⟩
      · exact absurd h hne
      · exact .inr (.inl ⟨hp, v, rest, hm, hv, h⟩)
      · exact .inr (.inr (.inl ⟨hp, i, v, rest, hm, h⟩))
    · exact absurd (by simp) hne
    · exact .inr (.inr (.inr ⟨rest, hm, rfl⟩))
  · exact absurd rfl hne

end Sys2Proof.Machine
end

