-- ==== Sys2Proof/Proofs/StateFields.lean ====
section
/-! The fields of STATUS, a command word's step, and the state after reset. -/

namespace Sys2Proof.Machine

open Sys2Proof.Statements

/-! ### STATUS -/

theorem Engine.busy_iff (e : Engine) : e.busy = true ↔ e.phase = .run := by
  unfold Engine.busy
  cases e.phase <;> simp

/-- The bits of STATUS: BUSY, DONE, two zeros, ERR, and zeros (R24). -/
theorem Engine.status_getLsbD (e : Engine) (i : Nat) :
    e.status.getLsbD i =
      if i = 0 then e.busy else if i = 1 then e.done else if i < 4 then false else e.err.getLsbD (i - 4) := by
  unfold Engine.status
  simp only [BitVec.getLsbD_append]
  rcases i with _ | _ | i
  · simp
  · simp
  · by_cases hi : i < 2
    · simp [hi]
    · have herr : e.err.getLsbD (i - 2) = true → i - 2 < 4 := BitVec.lt_of_getLsbD
      have h4 : ¬ i + 1 + 1 < 4 := by omega
      simpa [hi, h4] using herr

/-- Settles O21: every field is read off the bits of STATUS. -/
theorem statusHasItsFields : Obligations.StatusHasItsFields := by
  intro e
  refine ⟨?_, ?_, ?_, ?_, ?_⟩
  · rw [e.status_getLsbD, if_pos rfl, e.busy_iff]
  · rw [e.status_getLsbD, if_neg (by decide), if_pos rfl]
  · ext i hi
    rw [BitVec.getElem_extractLsb', e.status_getLsbD, if_neg (by omega), if_neg (by omega), if_pos (by omega)]
    simp
  · ext i hi
    rw [BitVec.getElem_extractLsb', e.status_getLsbD, if_neg (by omega), if_neg (by omega), if_neg (by omega),
      Nat.add_sub_cancel_left, BitVec.getLsbD_eq_getElem]
  · ext i hi
    rw [BitVec.getElem_extractLsb', e.status_getLsbD, if_neg (by omega), if_neg (by omega), if_neg (by omega),
      BitVec.getLsbD_of_ge _ _ (by omega)]
    simp

/-! ### A command word's step (R25, R160) -/

theorem taken_engine (s : State) (rest : List HostOp) : (taken s rest).engine = s.engine := by
  simp [taken]

theorem taken_host (s : State) (rest : List HostOp) : (taken s rest).host = { s.host with todo := rest } := by
  simp [taken]

/-- A write of a word to CMD is a legal access, and it performs the command (R55). -/
theorem step_of_write_cmd {s : State} {v : Word} {rest : List HostOp} (hm : s.mover = .host (.wr 0x00 v) rest) :
    step s = exec (decode v) (taken s rest) := by
  unfold step
  rw [hm]
  exact checkOffset_legal _ (by decide) rfl

/-- A presented command word is the next thing that happens, in either phase. -/
theorem presentCommand_mover (s : State) (v : Word) :
    (s.presentCommand v).mover = .host (.wr 0x00 v) s.host.todo := by
  cases hp : s.engine.phase with
  | idle => simp [State.mover, State.presentCommand, State.letHostMove, hp, cmdOffset]
  | run => simp [State.mover, State.presentCommand, State.letHostMove, hp, cmdOffset]

/-- Taking a presented command from the list gives back the count it added to (log 1). -/
theorem taken_presentCommand_wait (s : State) (v : Word) :
    (taken (s.presentCommand v) s.host.todo).turns.wait = s.turns.wait := by
  cases hp : s.engine.phase with
  | idle => simp [taken, State.presentCommand, State.letHostMove, State.countHostStep, hp]
  | run => simp [taken, State.presentCommand, State.letHostMove, State.countHostStep, hp]

theorem taken_presentCommand_idle {s : State} (v : Word) (hp : s.engine.phase = .idle) :
    taken (s.presentCommand v) s.host.todo = s := by
  simp [taken, State.presentCommand, State.letHostMove, State.countHostStep, hp, State.setTodo]

/-- Settles O29: a write of CMD performs its command, and a presented command word is such a write, whose taking gives
back the state it was presented in, up to the form of the count. -/
theorem stepRunsTheDecodedCommand : Obligations.StepRunsTheDecodedCommand := by
  refine ⟨fun s v rest hm => ⟨step_of_write_cmd hm, taken_engine s rest, taken_host s rest⟩, fun s w hw => ?_⟩
  have hword : s.withFetchWord 32 w = s.presentCommand (BitVec.ofNat 32 w) := by
    rw [State.withFetchWord, Nat.mod_eq_of_lt hw]
  refine ⟨taken (s.presentCommand (BitVec.ofNat 32 w)) s.host.todo, ?_, ?_, ?_, ?_, ?_⟩
  · rw [hword]
    exact step_of_write_cmd (presentCommand_mover s _)
  · simp [taken_engine, State.presentCommand]
  · simp [taken_host, State.presentCommand]
  · exact taken_presentCommand_wait s _
  · exact taken_presentCommand_idle _

/-! ### The state after reset (R20, R220) -/

/-- Settles O37: no error, nothing pending, idle. -/
theorem resetMeetsTheInvariant : Obligations.ResetMeetsTheInvariant where
  err_produced := by decide
  pend_bounded := by decide
  idle_empty _ := rfl
  run_not_done _ := rfl
  run_holds := nofun

end Sys2Proof.Machine
end

