-- ==== Sys2Proof/Proofs/BlockBytes.lean ====
section
/-! The words of the block buffer and their bytes (R9, R58). -/

namespace Sys2Proof.Machine

theorem wordByte_toNat (v : Word) (k : Nat) : (wordByte v k).toNat = v.toNat / 2 ^ (24 - 8 * k) % 256 := by
  rw [wordByte, BitVec.extractLsb'_toNat, Nat.shiftRight_eq_div_pow]

theorem wordByte_getLsbD (v : Word) (k i : Nat) :
    (wordByte v k).getLsbD i = (decide (i < 8) && v.getLsbD (24 - 8 * k + i)) := by
  rw [wordByte, BitVec.getLsbD_extractLsb']

/-- `BE32` sets its four bytes side by side, the first on top: the shifted bytes do not overlap (R9). -/
theorem be32_getLsbD (b0 b1 b2 b3 : Byte) (i : Nat) (hi : i < 32) :
    (be32 b0 b1 b2 b3).getLsbD i =
      if i < 8 then b3.getLsbD i
      else if i < 16 then b2.getLsbD (i - 8)
      else if i < 24 then b1.getLsbD (i - 16)
      else b0.getLsbD (i - 24) := by
  have past (b : Byte) (j : Nat) (hj : 8 ≤ j) : b.getLsbD j = false := BitVec.getLsbD_of_ge b j hj
  simp only [be32, BitVec.getLsbD_or, BitVec.getLsbD_shiftLeft, BitVec.truncate_eq_setWidth,
    BitVec.getLsbD_setWidth, hi, decide_true, Bool.true_and]
  split_ifs <;> grind

/-- A word is `BE32` of its four bytes (R58). -/
theorem be32_wordByte (v : Word) : be32 (wordByte v 0) (wordByte v 1) (wordByte v 2) (wordByte v 3) = v := by
  apply BitVec.eq_of_getLsbD_eq
  intro i hi
  simp only [be32_getLsbD _ _ _ _ i hi, wordByte_getLsbD]
  split_ifs <;> grind

theorem blkByte_eq_wordByte (blk : Block) (k : Fin 64) (j i : Nat) (hj : j < 16) (hi : i < 4)
    (hk : k.val = 4 * j + i) : blkByte blk k = wordByte blk[j] i := by
  have hdiv : k.val / 4 = j := by omega
  have hmod : k.val % 4 = i := by omega
  simp only [blkByte, hdiv, hmod]

/-- A word of the block buffer is `BE32` of the buffer's bytes `4j` to `4j + 3` (R58). -/
theorem be32_blkByte (blk : Block) (j : Nat) (hj : j < 16) :
    be32 (blkByte blk ⟨4 * j, by omega⟩) (blkByte blk ⟨4 * j + 1, by omega⟩) (blkByte blk ⟨4 * j + 2, by omega⟩)
      (blkByte blk ⟨4 * j + 3, by omega⟩) = blk[j] := by
  rw [blkByte_eq_wordByte blk _ j 0 hj (by decide) rfl, blkByte_eq_wordByte blk _ j 1 hj (by decide) rfl,
    blkByte_eq_wordByte blk _ j 2 hj (by decide) rfl, blkByte_eq_wordByte blk _ j 3 hj (by decide) rfl,
    be32_wordByte]

theorem tailBytes_getD (blk : Block) (i : Nat) (hi : i < 64) :
    (tailBytes blk 64).getD i 0#8 = blkByte blk ⟨i, hi⟩ := by
  have hlen : i < (tailBytes blk 64).length := by rwa [tailBytes_length blk 64 (Nat.le_refl _)]
  rw [List.getD_eq_getElem _ _ hlen, tailBytes_get blk 64 i hlen hi]

/-- The 64 bytes of the block buffer, put together as words, are the block buffer (R58). -/
theorem toWords_tailBytes (blk : Block) : toWords (tailBytes blk 64) = blk := by
  ext j hj : 1
  rw [toWords_get _ _ hj, tailBytes_getD _ _ (by omega), tailBytes_getD _ _ (by omega),
    tailBytes_getD _ _ (by omega), tailBytes_getD _ _ (by omega), be32_blkByte blk j hj]

/-- Settles O48: a byte is a slice of its word, and a word is `BE32` of its slices. -/
theorem blockBytesAreBigEndian : Obligations.BlockBytesAreBigEndian := fun blk =>
  ⟨fun _ => wordByte_toNat _ _, fun j hj => (be32_blkByte blk j hj).symm, toWords_tailBytes blk⟩

end Sys2Proof.Machine
end

