-- ==== Sys2Proof/Proofs/CommandWords.lean ====
section
/-! Command words against `Command(v)` as R160 writes it: the record of an error, the acceptance of a command, and
the checks in their order. -/

namespace Sys2Proof.Machine

open Sys2Proof.Statements

theorem Engine.raise_eq_raised (e : Engine) (c : ErrCode) : e.raise c = raised c.bits e := e.raise_eq c

theorem Engine.startRun_eq_accepted (e : Engine) (b : Block) (bs : List Block) :
    e.startRun b bs = accepted (b :: bs) e := rfl

/-- A recorded error drops the action (R196), in the order R160 writes it. -/
theorem Engine.whenNoError_eq (e : Engine) (act : Engine → Engine) :
    e.whenNoError act = if e.err ≠ 0#4 then e else act e :=
  (ite_not ..).symm

theorem tailField_toNat (v : Word) : tailField v = v.toNat / 16 % 128 := by
  rw [tailField, BitVec.extractLsb'_toNat, Nat.shiftRight_eq_div_pow]

/-- PAD_LAST past the checks of R160 for BUSY and a recorded error. -/
theorem Engine.padLastChecked_eq (e : Engine) (len : Nat) :
    e.padLastChecked len =
      if e.msgLen = 0#64 then raised 0x3#4 e
      else if 64 < len then raised 0x4#4 e
      else accepted (paddedBlocks len e) e := by
  rcases e.padLastChecked_cases len with ⟨hz, h⟩ | ⟨hz, hl, h⟩ | ⟨hz, hl, b, bs, hb, h⟩
  · rw [h, if_pos hz, e.raise_eq_raised]; rfl
  · rw [h, if_neg hz, if_pos hl, e.raise_eq_raised]; rfl
  · have hblocks : paddedBlocks len e = b :: bs := hb
    rw [h, if_neg hz, if_neg (by omega), hblocks, e.startRun_eq_accepted]

/-- While busy every command but NOP is dropped with ERR_BUSY (R192). -/
theorem commandEffect_run {i : Instr} {e : Engine} (hi : i ≠ .nop) (hp : e.phase = .run) :
    commandEffect i e = e.raise .busy := by
  cases i with
  | nop => exact absurd rfl hi
  | init => exact e.whenIdle_run _ hp
  | compress => exact e.whenIdle_run _ hp
  | padLast len => exact e.whenIdle_run _ hp
  | reserved4to7 op => exact e.whenIdle_run _ hp
  | reserved8toF op => exact e.whenIdle_run _ hp

/-- The command words of NOP are those with opcode 0 (R71). -/
theorem decode_eq_nop_iff (v : Word) : decode v = .nop ↔ v.toNat % 16 = 0 := by
  simp only [decode, opField_toNat]
  repeat' split
  all_goals simp [*]

/-- The command of a word, by the word's opcode (R71, R72). -/
theorem decode_cases (v : Word) :
    (v.toNat % 16 = 0 ∧ decode v = .nop) ∨ (v.toNat % 16 = 1 ∧ decode v = .init) ∨
    (v.toNat % 16 = 2 ∧ decode v = .compress) ∨
    (v.toNat % 16 = 3 ∧ decode v = .padLast (v.toNat / 16 % 128)) ∨
    (4 ≤ v.toNat % 16 ∧
      (decode v = .reserved4to7 (v.toNat % 16) ∨ decode v = .reserved8toF (v.toNat % 16))) := by
  simp only [decode, opField_toNat, tailField_toNat]
  split_ifs with h0 h1 h2 h3 h8
  · exact .inl ⟨h0, rfl⟩
  · exact .inr (.inl ⟨h1, rfl⟩)
  · exact .inr (.inr (.inl ⟨h2, rfl⟩))
  · exact .inr (.inr (.inr (.inl ⟨h3, rfl⟩)))
  · exact .inr (.inr (.inr (.inr ⟨by omega, .inl rfl⟩)))
  · exact .inr (.inr (.inr (.inr ⟨by omega, .inr rfl⟩)))

theorem rejectOpcode_eq_commandAsWritten {v : Word} {e : Engine} (hp : e.phase = .idle) (hop : 4 ≤ v.toNat % 16) :
    e.rejectOpcode = commandAsWritten v e := by
  have hrun : e.phase ≠ .run := by simp [hp]
  rw [Engine.rejectOpcode, e.whenIdle_idle _ hp, e.raise_eq_raised, commandAsWritten, if_neg (by omega),
    if_neg hrun, if_pos hop]
  rfl

/-- R160 while idle, NOP aside: the opcode says which check or action is left. -/
theorem commandEffect_decode_idle {v : Word} {e : Engine} (hp : e.phase = .idle) (hnop : v.toNat % 16 ≠ 0) :
    commandEffect (decode v) e = commandAsWritten v e := by
  rcases decode_cases v with ⟨hop, -⟩ | ⟨hop, hd⟩ | ⟨hop, hd⟩ | ⟨hop, hd⟩ | ⟨hop, hd | hd⟩
  · exact absurd hop hnop
  · simp only [hd, commandEffect, e.whenIdle_idle _ hp]
    simp [commandAsWritten, hop, hp, Engine.initDigest, Engine.clearErr]
  · simp only [hd, commandEffect, e.whenIdle_idle _ hp, e.whenNoError_eq]
    simp [commandAsWritten, hop, hp, Engine.compressBlk, Engine.startRun_eq_accepted]
  · simp only [hd, commandEffect, e.whenIdle_idle _ hp, e.whenNoError_eq]
    simp [commandAsWritten, hop, hp, Engine.padLastChecked_eq]
  · rw [hd]
    exact rejectOpcode_eq_commandAsWritten hp hop
  · rw [hd]
    exact rejectOpcode_eq_commandAsWritten hp hop

/-- A command word does what `Command(v)` of R160 says. -/
theorem commandEffect_decode (v : Word) (e : Engine) : commandEffect (decode v) e = commandAsWritten v e := by
  by_cases hop : v.toNat % 16 = 0
  · rw [(decode_eq_nop_iff v).2 hop, commandAsWritten, if_pos hop]
    rfl
  · cases hp : e.phase with
    | idle => exact commandEffect_decode_idle hp hop
    | run =>
      rw [commandEffect_run (mt (decode_eq_nop_iff v).1 hop) hp, e.raise_eq_raised, commandAsWritten, if_neg hop,
        if_pos hp]
      rfl

end Sys2Proof.Machine
end

