-- ==== Sys2Proof/Proofs/RegisterWindow.lean ====
section
/-! The register window: the host's accesses as steps, what an offset selects, what a read of it gives and what a
write of it does (R51 to R56, R59). -/

namespace Sys2Proof.Machine

open Sys2Proof.Statements

/-! ### Host actions as steps -/

theorem step_of_host {s : State} {op : HostOp} {rest : List HostOp} (hm : s.mover = .host op rest) :
    step s = s.countHostStep.hostStep op rest := by
  unfold step
  rw [hm]

theorem checkOffset_misaligned {off : Nat} (x : Host.Outcome State Fault Refusal) (hw : off < windowSize)
    (ha : off % 4 ≠ 0) : checkOffset off x = .refused (.busMisaligned off) := by
  unfold checkOffset
  rw [if_neg (by omega), if_pos ha]

/-- A read at an aligned offset of the window is recorded (R54). -/
theorem step_of_read {s : State} {off : Nat} {rest : List HostOp} (hm : s.mover = .host (.rd off) rest)
    (hw : off < windowSize) (ha : off % 4 = 0) : step s = .next ((taken s rest).hostRead off) :=
  (step_of_host hm).trans (checkOffset_legal _ hw ha)

/-- A write at an aligned offset of the window changes the engine alone (R55). -/
theorem step_of_write {s : State} {off : Nat} {v : Word} {rest : List HostOp} (hm : s.mover = .host (.wr off v) rest)
    (hw : off < windowSize) (ha : off % 4 = 0) :
    step s = .next ((taken s rest).setEngine (s.engine.hostWrite off v)) := by
  rw [step_of_host hm]
  refine (checkOffset_legal _ hw ha).trans ?_
  rw [State.hostWrite_eq]
  simp only [State.setTodo_engine, State.countHostStep_engine, taken]

/-- Settles O25: the bus checks stand before every access (R52). -/
theorem otherWidthsAndMisalignedAreRefused : Obligations.OtherWidthsAndMisalignedAreRefused := by
  intro s off rest
  refine ⟨fun width hm => step_of_host hm, fun hw ha => ⟨fun hm => ?_, fun v hm => ?_⟩⟩
  · exact (step_of_host hm).trans (checkOffset_misaligned _ hw ha)
  · exact (step_of_host hm).trans (checkOffset_misaligned _ hw ha)

/-- Settles O30: the three movers; of the host's actions only a poll that saw BUSY stays on the list. -/
theorem stepsInterleaveHostAndEngine : Obligations.StepsInterleaveHostAndEngine := by
  intro s s' hstep
  rcases step_cases hstep with ⟨hm, rfl⟩ | ⟨op, rest, hm, hhost⟩ | ⟨hm, rfl⟩
  · exact .inl ⟨State.mover_engine hm, rfl, rfl⟩
  · have htodo := State.mover_host hm
    refine .inr (.inl ⟨op, rest, htodo, ?_⟩)
    rcases State.hostStep_cases hhost with
      ⟨off, rfl, -, -, rfl⟩ | ⟨off, v, rfl, -, -, rfl⟩ | ⟨rfl, rfl⟩ | ⟨rfl, rfl⟩
    · exact .inl rfl
    · exact .inl rfl
    · cases hbusy : s.engine.status.getLsbD 0 with
      | false => exact .inl (by rw [State.hostPoll_host, State.countHostStep_engine, hbusy]; rfl)
      | true => exact .inr ⟨rfl, (statusHasItsFields s.engine).1.1 hbusy, by
        rw [State.hostPoll_host, State.countHostStep_engine, hbusy, htodo]; rfl⟩
    · exact .inl rfl
  · obtain ⟨hp, htodo⟩ := State.mover_nobody hm
    exact .inr (.inr ⟨hp, htodo, rfl⟩)

/-! ### The register map (R51, R53) -/

theorem registerAt_reserved (off : Nat) (ha : off % 4 = 0) (h : (0x10 ≤ off ∧ off ≤ 0x1C) ∨ 0x80 ≤ off) :
    registerAt off = .reserved := by
  unfold registerAt
  rw [if_neg (by omega), if_neg (by omega), if_neg (by omega), if_neg (by omega), dif_neg (by omega),
    dif_neg (by omega)]

/-- The offset of a register (R51); of the reserved ones, which have several, the first. -/
def Register.offset : Register → Nat
  | .cmd => 0x00
  | .status => 0x04
  | .msgLenLo => 0x08
  | .msgLenHi => 0x0C
  | .h i => 0x20 + 4 * i.val
  | .blk j => 0x40 + 4 * j.val
  | .reserved => 0x10

theorem registerAt_offset {off : Nat} (ha : off % 4 = 0) (hne : registerAt off ≠ .reserved) :
    (registerAt off).offset = off := by
  unfold registerAt at hne ⊢
  split_ifs at hne ⊢ with h0 h4 h8 hC hH hB
  · exact h0.symm
  · exact h4.symm
  · exact h8.symm
  · exact hC.symm
  · simp only [Register.offset]
    omega
  · simp only [Register.offset]
    omega
  · exact absurd rfl hne

/-- Two aligned offsets that select one register, and not a reserved one, are the same. -/
theorem registerAt_injective {a off : Nat} (ha : a % 4 = 0) (ho : off % 4 = 0)
    (heq : registerAt a = registerAt off) (hne : registerAt off ≠ .reserved) : a = off :=
  calc
    a = (registerAt a).offset := (registerAt_offset ha (heq ▸ hne)).symm
    _ = (registerAt off).offset := by rw [heq]
    _ = off := registerAt_offset ho hne

/-- Settles O24: a reserved offset selects no register. -/
theorem reservedOffsetsReadZeroAndIgnoreWrites : Obligations.ReservedOffsetsReadZeroAndIgnoreWrites := by
  intro s off v ha hoff
  have hr : registerAt off = .reserved := registerAt_reserved off ha (by omega)
  constructor
  · rw [Engine.read, hr, Engine.readRegister]
  · rw [State.hostWrite, hr]
    rfl

/-! ### Reads (R51, R54) -/

/-- STATUS as R24 and R30 write it. -/
theorem Engine.status_eq_fields (e : Engine) :
    e.status = 0#24 ++ e.err ++ 0#2 ++ (if e.done then 1#1 else 0#1) ++ (if e.phase = .run then 1#1 else 0#1) := by
  unfold Engine.status Engine.busy
  cases e.done <;> cases e.phase <;> rfl

/-- The model's read is R51's. -/
theorem Engine.read_eq_windowRead (e : Engine) (off : Nat) : e.read off = windowRead e off := by
  unfold Engine.read registerAt windowRead
  rw [← e.status_eq_fields]
  split_ifs
  · rfl
  · rfl
  · exact BitVec.eq_of_toNat_eq (by simp [Engine.readRegister])
  · exact BitVec.eq_of_toNat_eq (by simp [Engine.readRegister, Nat.shiftRight_eq_div_pow])
  · rfl
  · rfl
  · rfl

/-- Settles O22: a read is recorded with R51's value. -/
theorem hostReadReturnsAndChangesNothing : Obligations.HostReadReturnsAndChangesNothing := by
  intro s off rest hm hw ha
  refine ⟨?_, taken_engine s rest⟩
  rw [step_of_read hm hw ha, State.hostRead, Engine.read_eq_windowRead, taken_engine, State.logRead, taken_host]

/-! ### The halves of MSGLEN (R23, R55) -/

theorem extract_lo_append (x y : Word) : (x ++ y : BitVec 64).extractLsb' 0 32 = y :=
  BitVec.extractLsb'_append_eq_right

theorem extract_hi_append (x y : Word) : (x ++ y : BitVec 64).extractLsb' 32 32 = x :=
  BitVec.extractLsb'_append_eq_left

theorem append_toNat (x y : Word) : (x ++ y : BitVec 64).toNat = x.toNat * 2 ^ 32 + y.toNat := by
  refine (BitVec.toNat_append x y).trans ?_
  rw [← Nat.shiftLeft_add_eq_or_of_lt y.isLt, Nat.shiftLeft_eq]

theorem extract_lo_toNat (n : BitVec 64) : (n.extractLsb' 0 32).toNat = n.toNat % 2 ^ 32 := by
  rw [BitVec.extractLsb'_toNat, Nat.shiftRight_zero]

theorem extract_hi_toNat (n : BitVec 64) : (n.extractLsb' 32 32).toNat = n.toNat / 2 ^ 32 := by
  rw [BitVec.extractLsb'_toNat, Nat.shiftRight_eq_div_pow]
  exact Nat.mod_eq_of_lt (by omega)

/-- A 64-bit value from its two halves, as one number. -/
theorem append_eq_ofNat (x y : Word) : (x ++ y : BitVec 64) = BitVec.ofNat 64 (x.toNat * 2 ^ 32 + y.toNat) := by
  rw [← append_toNat, BitVec.ofNat_toNat, BitVec.setWidth_eq]

/-! ### A write and the reads after it (R55, R56) -/

/-- The registers that keep a word the host writes, in a phase of the engine (R55). -/
def Register.keepsWrite (p : Phase) : Register → Prop
  | .cmd => False
  | .status => False
  | .msgLenLo => True
  | .msgLenHi => True
  | .h _ => p = .idle
  | .blk _ => True
  | .reserved => False

theorem Engine.writeH_idle {e : Engine} (i : Fin 8) (v : Word) (hp : e.phase = .idle) :
    e.writeH i v = { e with h := e.h.set i v } :=
  e.whenIdle_idle _ hp

theorem readRegister_writeRegister_same {e : Engine} {r : Register} (v : Word) (hr : r.keepsWrite e.phase) :
    (e.writeRegister r v).readRegister r = v := by
  cases r with
  | cmd => exact hr.elim
  | status => exact hr.elim
  | msgLenLo => exact extract_lo_append _ v
  | msgLenHi => exact extract_hi_append v _
  | h i =>
    rw [Engine.writeRegister, Engine.writeH_idle i v hr]
    exact Vector.getElem_set_self _
  | blk j => exact Vector.getElem_set_self _
  | reserved => exact hr.elim

/-- A kept write changes what its own register reads, and no other register: the two halves of MSGLEN and the words of
`H` and BLK do not overlap, and STATUS reads none of them. -/
theorem readRegister_writeRegister_other {e : Engine} {r a : Register} (v : Word) (hr : r.keepsWrite e.phase)
    (hne : a ≠ r) : (e.writeRegister r v).readRegister a = e.readRegister a := by
  cases r with
  | cmd => exact hr.elim
  | status => exact hr.elim
  | msgLenLo =>
    cases a with
    | msgLenLo => exact absurd rfl hne
    | msgLenHi => exact extract_hi_append _ v
    | _ => rfl
  | msgLenHi =>
    cases a with
    | msgLenLo => exact extract_lo_append v _
    | msgLenHi => exact absurd rfl hne
    | _ => rfl
  | h i =>
    rw [Engine.writeRegister, Engine.writeH_idle i v hr]
    cases a with
    | h j => exact Vector.getElem_set_ne i.isLt j.isLt fun hij => hne (congrArg Register.h (Fin.ext hij.symm))
    | _ => rfl
  | blk i =>
    cases a with
    | blk j => exact Vector.getElem_set_ne i.isLt j.isLt fun hij => hne (congrArg Register.blk (Fin.ext hij.symm))
    | _ => rfl
  | reserved => exact hr.elim

theorem registerAt_keepsWrite {off : Nat} {p : Phase}
    (h : off = 0x08 ∨ off = 0x0C ∨ (0x20 ≤ off ∧ off < 0x40 ∧ p = .idle) ∨ (0x40 ≤ off ∧ off < 0x80)) :
    (registerAt off).keepsWrite p := by
  rcases h with rfl | rfl | ⟨hl, hh, hp⟩ | hb
  · trivial
  · trivial
  · rw [registerAt_h off ⟨hl, hh⟩]
    exact hp
  · rw [registerAt_blk off hb]
    trivial

/-- Settles O28: the offsets are told apart by their registers. -/
theorem writeThenReadReturnsTheValue : Obligations.WriteThenReadReturnsTheValue := by
  intro s s' off v ha hoff hwrite
  have hkeep := registerAt_keepsWrite hoff
  have hcmd : registerAt off ≠ .cmd := fun h => by rw [h] at hkeep; exact hkeep
  have hres : registerAt off ≠ .reserved := fun h => by rw [h] at hkeep; exact hkeep
  rw [State.hostWrite_eq, Engine.hostWrite, if_neg hcmd] at hwrite
  cases hwrite
  refine ⟨readRegister_writeRegister_same v hkeep, fun a _ haa hne => ?_⟩
  exact readRegister_writeRegister_other v hkeep fun h => hne (registerAt_injective haa ha h hres)

/-! ### Writes (R55) -/

theorem Engine.writeH_eq (e : Engine) (i : Fin 8) (v : Word) :
    e.writeH i v = if e.phase = .run then raised 0x1#4 e else { e with h := e.h.set i v } := by
  rcases e.whenIdle_cases fun e => { e with h := e.h.set i v } with ⟨hp, h⟩ | ⟨hp, h⟩
  · exact h.trans (if_neg (by simp [hp])).symm
  · rw [if_pos hp]
    exact h.trans (e.raise_eq_raised _)

/-- A register write at an offset other than CMD's is R55's case. -/
theorem Engine.writeRegister_eq_windowWrite (e : Engine) {off : Nat} (v : Word) (hoff : off ≠ 0x00) :
    e.writeRegister (registerAt off) v = windowWrite e off v := by
  unfold registerAt windowWrite
  rw [if_neg hoff, if_neg hoff]
  split_ifs with h4 h8 hC hH hrun hB
  · rfl
  · rw [Engine.writeRegister, Engine.writeMsgLenLo, append_eq_ofNat, extract_hi_toNat]
  · rw [Engine.writeRegister, Engine.writeMsgLenHi, append_eq_ofNat, extract_lo_toNat]
  · rw [Engine.writeRegister, Engine.writeH_eq, if_pos hrun]
  · rw [Engine.writeRegister, Engine.writeH_eq, if_neg hrun]
  · rfl
  · rfl

/-- The model's write is R55's, with R160 at CMD. -/
theorem Engine.hostWrite_eq_windowWrite (e : Engine) (off : Nat) (v : Word) :
    e.hostWrite off v = windowWrite e off v := by
  unfold Engine.hostWrite
  by_cases hoff : off = 0x00
  · rw [if_pos ((registerAt_eq_cmd off).2 hoff), commandEffect_decode, windowWrite, if_pos hoff]
  · rw [if_neg (mt (registerAt_eq_cmd off).1 hoff), e.writeRegister_eq_windowWrite v hoff]

/-- Settles O23: the step of a write changes the engine by R55's case. -/
theorem hostWriteDoesItsCase : Obligations.HostWriteDoesItsCase := by
  intro s off v rest hm hw ha
  refine ⟨?_, taken_host s rest⟩
  rw [step_of_write hm hw ha, Engine.hostWrite_eq_windowWrite]
  rfl

end Sys2Proof.Machine
end

