-- ==== Sys2Proof/Proofs/Encoding.lean ====
section
/-! Command words and the commands they stand for (R70 to R76): the decoded command is the one well-formed command
with the word's opcode and, for PAD_LAST, its tail length; and the host's `poll`. -/

namespace Sys2Proof.Machine

open Sys2Proof.Statements

/-! ### Well-formed operands (R71, R72) -/

theorem wf_padLast {len : Nat} : (Instr.padLast len).WF ↔ len < 128 := by
  simp [Instr.WF, Instr.wellFormed]

theorem wf_reserved4to7 {op : Nat} : (Instr.reserved4to7 op).WF ↔ 4 ≤ op ∧ op < 8 := by
  simp [Instr.WF, Instr.wellFormed]

theorem wf_reserved8toF {op : Nat} : (Instr.reserved8toF op).WF ↔ 8 ≤ op ∧ op < 16 := by
  simp [Instr.WF, Instr.wellFormed]

/-! ### Encoding, then the fields (R70) -/

theorem opField_encodeWith (ignored : BitVec 21) (i : Instr) : opField (encodeWith ignored i) = i.opcode :=
  BitVec.extractLsb'_append_eq_right

theorem tailField_encodeWith (ignored : BitVec 21) (i : Instr) :
    tailField (encodeWith ignored i) = i.tailBits.toNat := by
  have hfield : (encodeWith ignored i).extractLsb' 4 7 = i.tailBits := by
    ext k hk
    simp only [encodeWith, BitVec.getElem_extractLsb', BitVec.getLsbD_append]
    rw [if_neg (by omega), Nat.add_sub_cancel_left, if_pos hk, BitVec.getLsbD_eq_getElem hk]
  rw [tailField, hfield]

/-! ### The fields, then decoding (R71, R74) -/

/-- The well-formed command with a word's opcode and, for PAD_LAST, its tail length is the command of that word. -/
theorem decode_eq_of_fields {v : Word} {i : Instr} (hi : i.WF) (hop : opField v = i.opcode)
    (htail : ∀ len, i = .padLast len → tailField v = len) : decode v = i := by
  unfold decode
  rw [hop]
  cases i with
  | nop => rfl
  | init => rfl
  | compress => rfl
  | padLast len => exact congrArg Instr.padLast (htail len rfl)
  | reserved4to7 op =>
    obtain ⟨hlo, hhi⟩ := wf_reserved4to7.1 hi
    interval_cases op <;> rfl
  | reserved8toF op =>
    obtain ⟨hlo, hhi⟩ := wf_reserved8toF.1 hi
    interval_cases op <;> rfl

/-- The command of a word keeps its opcode, in the reserved rows as an operand (R71). -/
theorem opcode_decode (v : Word) : (decode v).opcode = opField v := by
  have hop : BitVec.ofNat 4 (opField v).toNat = opField v := by simp
  rw [← hop]
  unfold decode
  dsimp only
  split_ifs with h0 h1 h2 h3
  · rw [h0]; rfl
  · rw [h1]; rfl
  · rw [h2]; rfl
  · rw [h3]; rfl
  · rfl
  · rfl

theorem decode_wf (v : Word) : (decode v).WF := by
  have hop := (opField v).isLt
  have htail : tailField v < 2 ^ 7 := (v.extractLsb' 4 7).isLt
  unfold decode
  dsimp only
  split_ifs with h0 h1 h2 h3 h8
  · rfl
  · rfl
  · rfl
  · exact wf_padLast.2 htail
  · exact wf_reserved4to7.2 (by omega)
  · exact wf_reserved8toF.2 (by omega)

/-- The command words of PAD_LAST are those with opcode 3, their bits 10:4 the tail length (R71, R72). -/
theorem decode_eq_padLast_iff (v : Word) (len : Nat) :
    decode v = .padLast len ↔ v.toNat % 16 = 3 ∧ v.toNat / 16 % 128 = len := by
  simp only [decode, opField_toNat, tailField_toNat]
  split_ifs with h0 h1 h2 h3
  all_goals simp [*]

/-- Settles O2: the encoded word has the command's opcode and tail length in its fields. -/
theorem decodeInvertsEncodeWhateverIsIgnored : Obligations.DecodeInvertsEncodeWhateverIsIgnored := by
  intro i ignored hi
  refine decode_eq_of_fields hi (opField_encodeWith ignored i) fun len hlen => ?_
  subst hlen
  rw [tailField_encodeWith]
  exact Nat.mod_eq_of_lt (wf_padLast.1 hi)

/-- Settles O4: both fields of the two words agree, as far as the second word's command has them. -/
theorem ignoredBitsDoNotMatter : Obligations.IgnoredBitsDoNotMatter := by
  intro v v' hop htail
  refine decode_eq_of_fields (decode_wf v') ?_ fun len hlen => ?_
  · rw [opcode_decode]
    exact BitVec.eq_of_toNat_eq (by rw [opField_toNat, opField_toNat, hop])
  · obtain ⟨h3, htail'⟩ := (decode_eq_padLast_iff v' len).1 hlen
    rw [tailField_toNat, htail (hop.trans h3), htail']

/-! ### The rows of the opcode table (R71) -/

/-- No mask of the table reaches past the opcode. -/
theorem opcodeBits_and_mask : ∀ r ∈ tableRows, 0xF#32 &&& r.mask = r.mask := by
  decide

/-- Whether a word selects a row of the table rests on its opcode alone. -/
theorem selects_opField {r : Row} (hr : r ∈ tableRows) (v : Word) :
    r.selects v = r.selects ((opField v).setWidth 32) := by
  have hlow : (opField v).setWidth 32 = v &&& 0xF#32 := by
    refine BitVec.eq_of_toNat_eq ?_
    rw [BitVec.toNat_setWidth, opField_toNat, BitVec.toNat_and]
    exact (Nat.mod_eq_of_lt (by omega)).trans (Nat.and_two_pow_sub_one_eq_mod v.toNat 4).symm
  rw [Row.selects, Row.selects, hlow, BitVec.and_assoc, opcodeBits_and_mask r hr]

/-- A well-formed command's opcode selects its own row and no other. -/
theorem selects_opcode {i : Instr} (hi : i.WF) :
    ∀ r ∈ tableRows, r.selects (i.opcode.setWidth 32) = (r == rowOf i) := by
  cases i with
  | nop => decide
  | init => decide
  | compress => decide
  | padLast len =>
    change ∀ r ∈ tableRows, r.selects 0x3#32 = (r == rowOf (.padLast 0))
    decide
  | reserved4to7 op =>
    obtain ⟨hlo, hhi⟩ := wf_reserved4to7.1 hi
    interval_cases op <;> decide
  | reserved8toF op =>
    obtain ⟨hlo, hhi⟩ := wf_reserved8toF.1 hi
    interval_cases op <;> decide

theorem tableRows_nodup : tableRows.Nodup := by decide

theorem rowOf_mem_tableRows (i : Instr) : rowOf i ∈ tableRows := by
  cases i <;> simp [tableRows, rowOf]

/-- Settles O3: the rows that a word selects are those equal to its command's row, which stands in the table once. -/
theorem everyWordSelectsExactlyOneRow : Obligations.EveryWordSelectsExactlyOneRow := by
  refine fun v => ⟨?_, decode_wf v⟩
  have hsel : ∀ r ∈ tableRows, r.selects v = (r == rowOf (decode v)) := fun r hr => by
    rw [selects_opField hr, ← opcode_decode, selects_opcode (decode_wf v) r hr]
  calc
    tableRows.filter (fun r => r.selects v) = tableRows.filter (· == rowOf (decode v)) := List.filter_congr hsel
    _ = List.replicate (tableRows.count (rowOf (decode v))) (rowOf (decode v)) := List.filter_beq _
    _ = [rowOf (decode v)] := by
      rw [List.count_eq_one_of_mem tableRows_nodup (rowOf_mem_tableRows _)]
      rfl

/-! ### `poll` (R75) -/

theorem State.hostPoll_eq (s : State) (rest : List HostOp) :
    s.hostPoll rest =
      { s with host := { todo := if s.engine.phase = .run then .poll :: rest else rest
                         reads := (statusOffset, s.engine.read statusOffset) :: s.host.reads } } := by
  have hbusy : s.engine.status.getLsbD 0 = true ↔ s.engine.phase = .run := (statusHasItsFields s.engine).1
  unfold State.hostPoll
  simp only [hbusy]
  split <;> rfl

/-- Settles O27: the value of STATUS read has BUSY = 1 exactly while the engine runs. -/
theorem pollReadsStatusUntilNotBusy : Obligations.PollReadsStatusUntilNotBusy := by
  intro s rest hm
  refine ⟨?_, taken_engine s rest⟩
  rw [step_of_host hm, State.hostStep, State.hostPoll_eq, Engine.read_eq_windowRead, State.countHostStep_engine,
    State.countHostStep_host]
  simp only [taken_engine]
  rfl

end Sys2Proof.Machine
end

