-- ==== Sys2Proof/Proofs/Constants.lean ====
section
/-! The constants of the ROM (spec/40_constants.md R90, R91) are low words of integer roots: the root of a prime
times a power of 2^32, rounded down, is the integer part and the first 32 bits of the fraction side by side. -/

namespace Sys2Proof.Machine

open Sys2Proof.Statements

/-- The two parts of an integer root, cut at bit 32, put together and raised to the power again bound the radicand. -/
theorem exists_intPart_of_nthRoot {n x frac bound : Nat} (hn : n ≠ 0) (hfrac : n.nthRoot x % 2 ^ 32 = frac)
    (hbound : n.nthRoot x / 2 ^ 32 < bound) :
    ∃ a, a < bound ∧ (a * 2 ^ 32 + frac) ^ n ≤ x ∧ x < (a * 2 ^ 32 + frac + 1) ^ n := by
  refine ⟨n.nthRoot x / 2 ^ 32, hbound, ?_⟩
  rw [← hfrac, Nat.div_add_mod']
  exact ⟨Nat.pow_nthRoot_le (.inl hn), Nat.lt_pow_nthRoot_add_one hn x⟩

/-- R90: IV[i] is the low word of the square root of the i-th prime times 2^32, rounded down. -/
theorem iv_eq_sqrt_mod : ∀ i : Fin 8, Nat.nthRoot 2 (primes.getD i.val 0 * 2 ^ 64) % 2 ^ 32 = iv[i].toNat := by
  decide

/-- The square roots of the first 8 primes, up to 19, are below 5. -/
theorem sqrt_intPart_lt : ∀ i : Fin 8, Nat.nthRoot 2 (primes.getD i.val 0 * 2 ^ 64) / 2 ^ 32 < 5 := by
  decide

/-- R91: K[t] is the low word of the cube root of the t-th prime times 2^32, rounded down. -/
theorem roundK_eq_cbrt_mod :
    ∀ t : Fin 64, Nat.nthRoot 3 (primes.getD t.val 0 * 2 ^ 96) % 2 ^ 32 = roundK[t].toNat := by
  decide

/-- The cube roots of the first 64 primes, up to 311, are below 7. -/
theorem cbrt_intPart_lt : ∀ t : Fin 64, Nat.nthRoot 3 (primes.getD t.val 0 * 2 ^ 96) / 2 ^ 32 < 7 := by
  decide

/-- Settles O54: each constant is the low word of its prime's scaled root, and the high part is the integer sought. -/
theorem romConstantsAreRootFractions : Obligations.RomConstantsAreRootFractions :=
  ⟨fun i => exists_intPart_of_nthRoot two_ne_zero (iv_eq_sqrt_mod i) (sqrt_intPart_lt i),
    fun t => exists_intPart_of_nthRoot three_ne_zero (roundK_eq_cbrt_mod t) (cbrt_intPart_lt t)⟩

end Sys2Proof.Machine
end

