-- ==== Sys2Proof/Proofs/WordOps.lean ====
section
/-! The word operations bit by bit (spec/41_word_ops.md R100 to R107) and the sum of several words (R108). Each
primitive gets one bit law; the round and schedule functions are exclusive ors of primitives. -/

namespace Sys2Proof.Machine

/-! ### Rotation and shift (R100, R101) -/

/-- The model's rotation is the library's, whose two shifts need no case for the amount 0. -/
theorem rotateRight_eq_bitVec_rotateRight (x : Word) (n : Nat) : rotateRight x n = x.rotateRight n := by
  rw [rotateRight, BitVec.rotateRight_def]
  split
  case isTrue h => simp [h]
  case isFalse => rfl

/-- Below `32 - n % 32` the bit comes from the right shift, from there on from the left shift, which wraps around. -/
theorem getLsbD_rotateRight (x : Word) (n : Nat) {i : Nat} (hi : i < 32) :
    (rotateRight x n).getLsbD i = x.getLsbD ((i + n) % 32) := by
  rw [rotateRight_eq_bitVec_rotateRight, BitVec.getLsbD_rotateRight]
  by_cases hlow : i < 32 - n % 32
  · have hsource : (i + n) % 32 = n % 32 + i := by omega
    simp [hlow, hsource]
  · have hsource : (i + n) % 32 = i - (32 - n % 32) := by omega
    simp [hlow, hi, hsource]

/-- Settles O49: the amount's reduction modulo 32 is absorbed by the bit index's. -/
theorem rotateRightMovesEachBit : Obligations.RotateRightMovesEachBit := by
  intro x n i hi
  rw [getLsbD_rotateRight x n hi, Nat.add_mod_mod]

theorem getLsbD_shiftRight (x : Word) (n : Fin 32) (i : Nat) :
    (shiftRight x n).getLsbD i = if i + n.val ≤ 31 then x.getLsbD (i + n.val) else false := by
  rw [shiftRight, BitVec.getLsbD_ushiftRight, Nat.add_comm]
  split
  case isTrue => rfl
  case isFalse hfill => exact BitVec.getLsbD_of_ge x _ (by omega)

/-- The shift takes the bit that the rotation takes, as far as it has not filled with zero. -/
theorem getLsbD_shiftRight_mod (x : Word) (n : Fin 32) (i : Nat) :
    (shiftRight x n).getLsbD i = if i + n.val ≤ 31 then x.getLsbD ((i + n.val) % 32) else false := by
  rw [getLsbD_shiftRight]
  refine ite_congr rfl (fun hkept => ?_) fun _ => rfl
  rw [Nat.mod_eq_of_lt (by omega)]

/-! ### Select and vote (R102, R103) -/

theorem getLsbD_choose (x y z : Word) {i : Nat} (hi : i < 32) :
    (choose x y z).getLsbD i = if x.getLsbD i then y.getLsbD i else z.getLsbD i := by
  simp only [choose, BitVec.getLsbD_xor, BitVec.getLsbD_and, BitVec.getLsbD_not, hi]
  cases x.getLsbD i
  case false => simp
  case true => simp

theorem getLsbD_majority (x y z : Word) (i : Nat) :
    (majority x y z).getLsbD i =
      ((x.getLsbD i && y.getLsbD i) ^^ (x.getLsbD i && z.getLsbD i) ^^ (y.getLsbD i && z.getLsbD i)) := by
  simp only [majority, BitVec.getLsbD_xor, BitVec.getLsbD_and]

/-- The exclusive or of the three pairwise products is 1 exactly when two of the three bits are. -/
theorem xor_pairs_eq_true_iff : ∀ a b c : Bool,
    ((a && b) ^^ (a && c) ^^ (b && c)) = true ↔
      (a = true ∧ b = true) ∨ (a = true ∧ c = true) ∨ (b = true ∧ c = true) := by
  decide

/-- Settles O50: the bit laws of the three primitives, the vote's by its truth table. -/
theorem shiftChooseMajorityBits : Obligations.ShiftChooseMajorityBits := by
  refine fun x y z n i hi => ⟨getLsbD_shiftRight x n i, getLsbD_choose x y z hi, ?_⟩
  rw [getLsbD_majority]
  exact xor_pairs_eq_true_iff _ _ _

/-! ### The round and schedule functions (R104 to R107) -/

/-- The form of `sigma0` and `sigma1`. -/
theorem getLsbD_xor_rotations (x : Word) (k l m : Nat) {i : Nat} (hi : i < 32) :
    (rotateRight x k ^^^ rotateRight x l ^^^ rotateRight x m).getLsbD i =
      ((x.getLsbD ((i + k) % 32) ^^ x.getLsbD ((i + l) % 32)) ^^ x.getLsbD ((i + m) % 32)) := by
  simp only [BitVec.getLsbD_xor, getLsbD_rotateRight x _ hi]

/-- The form of `gamma0` and `gamma1`. -/
theorem getLsbD_xor_rotations_shift (x : Word) (k l : Nat) (m : Fin 32) {i : Nat} (hi : i < 32) :
    (rotateRight x k ^^^ rotateRight x l ^^^ shiftRight x m).getLsbD i =
      ((x.getLsbD ((i + k) % 32) ^^ x.getLsbD ((i + l) % 32)) ^^
        if i + m.val ≤ 31 then x.getLsbD ((i + m.val) % 32) else false) := by
  simp only [BitVec.getLsbD_xor, getLsbD_rotateRight x _ hi, getLsbD_shiftRight_mod]

/-- Settles O51: an exclusive or acts on each bit, and each operand's bit is the rotation's or the shift's. -/
theorem sigmaGammaBits : Obligations.SigmaGammaBits := fun x _ hi =>
  ⟨getLsbD_xor_rotations x 2 13 22 hi, getLsbD_xor_rotations x 6 11 25 hi,
    getLsbD_xor_rotations_shift x 7 18 3 hi, getLsbD_xor_rotations_shift x 17 19 10 hi⟩

/-! ### The sum of several words (R108) -/

/-- Settles O52, by induction on the list: reducing the first partial sum does not change the reduced total. -/
theorem wordSumIsExactSumModulo : Obligations.WordSumIsExactSumModulo := by
  intro x xs
  induction xs generalizing x with
  | nil =>
    rw [addWords_nil, List.map_nil, List.sum_nil, Nat.add_zero, Nat.mod_eq_of_lt x.isLt]
  | cons y ys ih =>
    calc (addWords x (y :: ys)).toNat
      _ = ((x + y).toNat + (ys.map BitVec.toNat).sum) % 2 ^ 32 := by rw [addWords_cons, ih]
      _ = (x.toNat + y.toNat + (ys.map BitVec.toNat).sum) % 2 ^ 32 := by rw [BitVec.toNat_add, Nat.mod_add_mod]
      _ = (x.toNat + ((y :: ys).map BitVec.toNat).sum) % 2 ^ 32 := by
        rw [List.map_cons, List.sum_cons, Nat.add_assoc]

end Sys2Proof.Machine
end

