-- ==== Sys2Proof/Proofs/Padding.lean ====
section
/-! The padding unit: the tail it takes from the block buffer (spec/42_padding.md R121), the trailer in the last
block's words (R122), and the layout of the padded tail (R123 to R126) and of the padded message (R127, R128). -/

namespace Sys2Proof.Machine

/-! ### The tail (R121) -/

theorem tailBytes_getElem? (blk : Block) {len : Nat} (k : Fin 64) (hk : k.val < len) :
    (tailBytes blk len)[k.val]? = some (blkByte blk k) := by
  rw [tailBytes, List.getElem?_take_of_lt hk, List.getElem?_ofFn, dif_pos k.isLt]

/-- The tail is a function of the first `len` bytes of the block buffer. -/
theorem tailBytes_congr {blk blk' : Block} {len : Nat} (hlen : len ≤ 64)
    (hagree : ∀ k : Fin 64, k.val < len → blkByte blk k = blkByte blk' k) :
    tailBytes blk len = tailBytes blk' len := by
  have hl := tailBytes_length blk len hlen
  have hl' := tailBytes_length blk' len hlen
  refine List.ext_getElem (hl.trans hl'.symm) fun i hi hi' => ?_
  have hlt : i < len := hl ▸ hi
  have h64 : i < 64 := hlt.trans_le hlen
  rw [tailBytes_get blk len i hi h64, tailBytes_get blk' len i hi' h64, hagree ⟨i, h64⟩ hlt]

/-- Settles O43: the blocks are made of the tail alone, and the tail of the buffer's first bytes. -/
theorem bytesPastTheTailDoNotMatter : Obligations.BytesPastTheTailDoNotMatter := by
  intro blk blk' len n hlen hagree
  refine ⟨?_, tailBytes_length blk len hlen, tailBytes_getElem? blk⟩
  rw [padLastBlocks, padLastBlocks, tailBytes_congr hlen hagree]

/-! ### The trailer (R122) -/

theorem bitLength_toNat (n : BitVec 64) : (bitLength n).toNat = 8 * n.toNat % 2 ^ 64 := by
  rw [bitLength, BitVec.toNat_ofNat]

/-- The bytes of either half of a 64-bit value are bytes of the value. -/
theorem wordByte_extractLsb' (v : BitVec 64) (start k : Nat) :
    wordByte (v.extractLsb' start 32) k = v.extractLsb' (start + (24 - 8 * k)) 8 := by
  apply BitVec.eq_of_getLsbD_eq
  intro i hi
  have hbit : 24 - 8 * k + i < 32 := by omega
  simp only [wordByte_getLsbD, BitVec.getLsbD_extractLsb', hi, hbit, decide_true, Bool.true_and, Nat.add_assoc]

/-- `BE64bytes` is the four bytes of the high half, then those of the low half (R9). -/
theorem be64Bytes_eq_wordBytes (v : BitVec 64) :
    be64Bytes v =
      (List.range 4).map (wordByte (v.extractLsb' 32 32)) ++ (List.range 4).map (wordByte (v.extractLsb' 0 32)) := by
  simp [be64Bytes, List.range_succ, wordByte_extractLsb']

/-- A 64-bit value's eight bytes at bytes 56 to 63 of a block are words 14 and 15, the high half first. -/
theorem toWords_append_be64Bytes {front : List Byte} (hfront : front.length = 56) (v : BitVec 64) :
    (toWords (front ++ be64Bytes v))[14] = v.extractLsb' 32 32 ∧
      (toWords (front ++ be64Bytes v))[15] = v.extractLsb' 0 32 := by
  have hbyte (i : Nat) : (front ++ be64Bytes v).getD (56 + i) 0#8 = (be64Bytes v).getD i 0#8 := by
    rw [List.getD_append_right _ _ _ _ (by omega), hfront, Nat.add_sub_cancel_left]
  constructor
  · rw [toWords_get _ 14 (by decide), hbyte 0, hbyte 1, hbyte 2, hbyte 3, be64Bytes_eq_wordBytes]
    exact be32_wordByte _
  · rw [toWords_get _ 15 (by decide), hbyte 4, hbyte 5, hbyte 6, hbyte 7, be64Bytes_eq_wordBytes]
    exact be32_wordByte _

/-- A tail, its marker and its zero fill; the trailer is still to come. -/
theorem length_append_marker_zeroBytes (bytes : List Byte) (k : Nat) :
    (bytes ++ [0x80#8] ++ zeroBytes k).length = bytes.length + 1 + k := by
  rw [List.length_append, List.length_append, List.length_singleton, zeroBytes_length]

/-- Whatever the case of R126, the last block is 56 bytes and the trailer. -/
theorem padBlocks_getLast?_eq_append_trailer (tail : List Byte) (n : BitVec 64) :
    ∃ front, front.length = 56 ∧ (padBlocks tail tail.length n).getLast? = some (front ++ trailer n) := by
  obtain ⟨hlen, heq⟩ | ⟨-, -, heq⟩ | ⟨-, heq⟩ := padBlocks_cases tail tail.length n
  · refine ⟨tail ++ [0x80#8] ++ zeroBytes (55 - tail.length), ?_, by rw [heq, List.getLast?_singleton]⟩
    rw [length_append_marker_zeroBytes]
    omega
  · exact ⟨zeroBytes 56, zeroBytes_length 56, by rw [heq]; rfl⟩
  · exact ⟨[0x80#8] ++ zeroBytes 55, rfl, by rw [heq]; rfl⟩

/-- Settles O44: the last block ends in the trailer, and the trailer's words are the bit length's halves. -/
theorem trailerFillsTheLastTwoWords : Obligations.TrailerFillsTheLastTwoWords := by
  intro blk len n last hlen hlast
  obtain ⟨front, hfront, hblock⟩ := padBlocks_getLast?_eq_append_trailer (tailBytes blk len) n
  rw [tailBytes_length blk len hlen] at hblock
  obtain rfl : toWords (front ++ trailer n) = last := by
    rwa [padLastBlocks, List.getLast?_map, hblock, Option.map_some, Option.some.injEq] at hlast
  obtain ⟨hhigh, hlow⟩ := toWords_append_be64Bytes hfront (bitLength n)
  rw [trailer, hhigh, hlow]
  simp only [BitVec.extractLsb'_toNat, bitLength_toNat, Nat.shiftRight_eq_div_pow]
  omega

/-! ### The padded tail (R123 to R126) -/

theorem padBlocks_length (tail : List Byte) (len : Nat) (n : BitVec 64) :
    (padBlocks tail len n).length = numPadBlocks len := by
  obtain ⟨hlen, heq⟩ | ⟨hlow, -, heq⟩ | ⟨hlow, heq⟩ := padBlocks_cases tail len n
  · rw [heq, numPadBlocks, if_pos hlen, List.length_singleton]
  · rw [heq, numPadBlocks, if_neg (by omega)]
    rfl
  · rw [heq, numPadBlocks, if_neg (by omega)]
    rfl

/-- R128 (a), for the blocks of the padding unit. -/
theorem length_of_mem_padBlocks {tail : List Byte} (htail : tail.length ≤ 64) (n : BitVec 64) :
    ∀ b ∈ padBlocks tail tail.length n, b.length = 64 := by
  obtain ⟨hlen, heq⟩ | ⟨hlow, hlen, heq⟩ | ⟨hlow, heq⟩ := padBlocks_cases tail tail.length n
  · rw [heq, List.forall_mem_singleton, List.length_append, length_append_marker_zeroBytes, trailer_length]
    omega
  · rw [heq, List.forall_mem_cons, List.forall_mem_singleton, length_append_marker_zeroBytes]
    exact ⟨by omega, rfl⟩
  · rw [heq, List.forall_mem_cons, List.forall_mem_singleton]
    exact ⟨by omega, rfl⟩

/-- The zero bytes between the marker and the trailer: up to byte 56 of the only block, or of the second. -/
def zeroFill (len : Nat) : Nat := (if len < 56 then 55 else 119) - len

/-- The padded bytes in order do not show where the first block ends: the zeros before the block's end join those
behind it. -/
theorem flatten_padBlocks {tail : List Byte} (htail : tail.length ≤ 64) (n : BitVec 64) :
    (padBlocks tail tail.length n).flatten =
      tail ++ [0x80#8] ++ zeroBytes (zeroFill tail.length) ++ trailer n := by
  obtain ⟨hlen, heq⟩ | ⟨hlow, hlen, heq⟩ | ⟨hlow, heq⟩ := padBlocks_cases tail tail.length n
  · rw [heq, zeroFill, if_pos hlen, List.flatten_singleton]
  · have hzeros : zeroBytes (63 - tail.length) ++ zeroBytes 56 = zeroBytes (119 - tail.length) := by
      rw [zeroBytes, zeroBytes, zeroBytes, List.replicate_append_replicate]
      congr 1
      omega
    rw [heq, zeroFill, if_neg (by omega), ← hzeros]
    simp
  · have hfull : tail.length = 64 := by omega
    rw [heq, zeroFill, hfull]
    simp

/-- Settles O45: the three cases of R126 have one layout. -/
theorem paddedTailHasItsLayout : Obligations.PaddedTailHasItsLayout := fun tail n htail =>
  ⟨padBlocks_length tail tail.length n, length_of_mem_padBlocks htail n, flatten_padBlocks htail n⟩

/-! ### The padded message (R127, R128) -/

theorem lastChunk_length (m : List Byte) : (lastChunk m).length = lastLength m.length := by
  rw [lastChunk, List.length_drop, lastLength]

theorem lastLength_le (n : Nat) : lastLength n ≤ 64 := by
  rw [lastLength, chunkCount]
  omega

/-- A chunk before the tail is full. -/
theorem chunk_length {m : List Byte} {j : Nat} (hj : j < chunkCount m.length) : (chunk m j).length = 64 := by
  rw [chunkCount] at hj
  rw [chunk, List.length_take, List.length_drop]
  omega

/-- The first `q` chunks in order are the message's first `64 * q` bytes. -/
theorem flatten_chunks (m : List Byte) (q : Nat) :
    ((List.range q).map (chunk m)).flatten = m.take (64 * q) := by
  induction q with
  | zero => rfl
  | succ q ih =>
    rw [List.range_succ, List.map_append, List.flatten_append, ih, Nat.mul_succ, List.take_add]
    simp [chunk]

/-- `Pad(m)`, its last chunk padded by the unit with the tail's own length (R127). -/
theorem padMessage_eq (m : List Byte) :
    padMessage m = (List.range (chunkCount m.length)).map (chunk m) ++
      padBlocks (lastChunk m) (lastChunk m).length (BitVec.ofNat 64 m.length) := by
  rw [padMessage, lastChunk_length]

theorem length_of_mem_padMessage {m b : List Byte} (hb : b ∈ padMessage m) : b.length = 64 := by
  rw [padMessage_eq, List.mem_append, List.mem_map] at hb
  obtain ⟨j, hj, rfl⟩ | hlast := hb
  · exact chunk_length (List.mem_range.mp hj)
  · exact length_of_mem_padBlocks ((lastChunk_length m).trans_le (lastLength_le _)) _ b hlast

/-- R128 (c) to (e): the chunks and the tail join to the message. -/
theorem flatten_padMessage (m : List Byte) :
    (padMessage m).flatten =
      m ++ [0x80#8] ++ zeroBytes (zeroFill (lastLength m.length)) ++ trailer (BitVec.ofNat 64 m.length) := by
  have hsplit : m.take (64 * chunkCount m.length) ++ lastChunk m = m := List.take_append_drop _ m
  rw [padMessage_eq, List.flatten_append, flatten_chunks,
    flatten_padBlocks ((lastChunk_length m).trans_le (lastLength_le _)), lastChunk_length]
  simp only [← List.append_assoc, hsplit]

theorem padMessage_length (m : List Byte) :
    (padMessage m).length = chunkCount m.length + numPadBlocks (lastLength m.length) := by
  rw [padMessage, List.length_append, List.length_map, List.length_range, padBlocks_length]

/-- The number of blocks: a second one for the tail exactly when its 9 bytes of padding do not fit. -/
theorem chunkCount_add_numPadBlocks {n : Nat} (hn : 1 ≤ n) :
    chunkCount n + numPadBlocks (lastLength n) = (n + 9 + 63) / 64 := by
  unfold numPadBlocks lastLength chunkCount
  split
  · omega
  · omega

/-- R128 (b): as many bytes as the blocks have, 64 each. -/
theorem flatten_padMessage_length {m : List Byte} (hm : 1 ≤ m.length) :
    (padMessage m).flatten.length = 64 * ((m.length + 9 + 63) / 64) := by
  have hlengths : (padMessage m).map List.length = List.replicate (padMessage m).length 64 :=
    List.map_eq_replicate_iff.mpr fun _ => length_of_mem_padMessage
  rw [List.length_flatten, hlengths, List.sum_replicate_nat, padMessage_length, chunkCount_add_numPadBlocks hm,
    Nat.mul_comm]

/-- Settles O46: the host's chunks are the message's front, the unit pads the rest (R127). -/
theorem paddedMessageHasItsLayout : Obligations.PaddedMessageHasItsLayout := fun m hm =>
  ⟨fun _ => length_of_mem_padMessage, flatten_padMessage_length hm, _, flatten_padMessage m⟩

end Sys2Proof.Machine
end

