-- ==== Sys2Proof/Proofs/Compression.lean ====
section
/-! The compression function's parts and the engine's two steps as plain sums (spec/43_compression.md R141 to R150). -/

namespace Sys2Proof.Machine

/-! ### The schedule (R141, R142) -/

/-- No word below 16 is computed, so up to round 16 the schedule is the block as loaded (R141). -/
theorem scheduleUpTo_eq_loadSchedule (b : Block) (n : Nat) (hn : n ≤ 16) :
    scheduleUpTo b n (by omega) = loadSchedule b (Vector.replicate 64 0#32) := by
  induction n with
  | zero => rfl
  | succ n ih => rw [scheduleUpTo_succ, ih (by omega), extendSchedule_below _ _ (by omega)]

theorem schedule_get_of_lt_16 (b : Block) (t : Nat) (ht : t < 16) : (schedule b)[t] = b[t] := by
  rw [getElem_congr_coll (schedule_eq_upTo b), scheduleUpTo_stable b t 16 ht (by decide),
    getElem_congr_coll (scheduleUpTo_eq_loadSchedule b 16 (Nat.le_refl 16)), loadSchedule_get, dif_pos ht]

/-- Word `t` is computed when the words below it are final, and is final from then on (R142). -/
theorem schedule_get_of_16_le (b : Block) (t : Nat) (ht : t < 64) (h16 : 16 ≤ t) : (schedule b)[t] =
    gamma1 (schedule b)[t - 2] + (schedule b)[t - 7] + gamma0 (schedule b)[t - 15] + (schedule b)[t - 16] := by
  have earlier (j : Nat) (hj : j < t) : (schedule b)[j] = (scheduleUpTo b t (by omega))[j] :=
    scheduleUpTo_stable b j t hj (by omega)
  calc (schedule b)[t]
    _ = (scheduleUpTo b (t + 1) ht)[t] := scheduleUpTo_stable b t (t + 1) (Nat.lt_succ_self t) ht
    _ = (extendSchedule (scheduleUpTo b t (by omega)) t ht)[t] := getElem_congr_coll (scheduleUpTo_succ b t ht)
    _ = _ := by
      rw [extendSchedule_get_self _ t h16, earlier (t - 2) (by omega), earlier (t - 7) (by omega),
        earlier (t - 15) (by omega), earlier (t - 16) (by omega)]

/-- Settles O53: the two ranges of the schedule. -/
theorem scheduleFollowsItsRecurrence : Obligations.ScheduleFollowsItsRecurrence := fun b =>
  ⟨schedule_get_of_lt_16 b, schedule_get_of_16_le b⟩

/-- A finished schedule is left as it is: the word that extending it writes is there already. -/
theorem extendSchedule_schedule (b : Block) (t : Nat) (ht : t < 64) :
    extendSchedule (schedule b) t ht = schedule b := by
  ext j hj : 1
  by_cases hjt : j = t
  · subst hjt
    by_cases h16 : 16 ≤ j
    · rw [extendSchedule_get_self _ j h16, schedule_get_of_16_le b j hj h16]
    · rw [extendSchedule_below _ j (by omega)]
  · rw [extendSchedule_get_ne _ t j ht hj hjt]

/-! ### The engine's steps (R149, R150) -/

theorem Engine.step_of_lt {e : Engine} (ht : e.t.val < 64) : e.step = e.roundStep ht := dif_pos ht

theorem Engine.step_of_eq {e : Engine} (ht : e.t.val = 64) : e.step = e.feedbackStep := dif_neg (by omega)

theorem extendSchedule_eq (w : MsgSchedule) (t : Nat) (ht : t < 64) :
    extendSchedule w t ht =
      if h16 : 16 ≤ t then w.set t (gamma1 w[t - 2] + w[t - 7] + gamma0 w[t - 15] + w[t - 16]) else w := by
  simp only [extendSchedule, scheduleWord, addWords_cons, addWords_nil]

/-- One round in plain sums (R144 to R146). -/
theorem mixRound_eq (v : Working) (k w : Word) :
    mixRound v k w =
      let t1 := v.h + sigma1 v.e + choose v.e v.f v.g + k + w
      let t2 := sigma0 v.a + majority v.a v.b v.c
      ⟨t1 + t2, v.a, v.b, v.c, v.d + t1, v.e, v.f, v.g⟩ := by
  simp only [mixRound, roundT1, roundT2, addWords_cons, addWords_nil]

theorem feedback_eq (d : Digest) (v : Working) :
    feedback d v =
      #v[d[0] + v.a, d[1] + v.b, d[2] + v.c, d[3] + v.d, d[4] + v.e, d[5] + v.f, d[6] + v.g, d[7] + v.h] := by
  simp only [feedback, addWords_cons, addWords_nil]

/-- Settles O33: below 64 the step is the round step, whose new schedule and round are these sums. -/
theorem roundStepDoesOneRound : Obligations.RoundStepDoesOneRound := by
  intro e ht w' t1 t2
  have hw : extendSchedule e.w e.t.val ht = w' := extendSchedule_eq e.w e.t.val ht
  have hvars : mixRound e.vars roundK[e.t.val] w'[e.t.val] =
      ⟨t1 + t2, e.vars.a, e.vars.b, e.vars.c, e.vars.d + t1, e.vars.e, e.vars.f, e.vars.g⟩ := mixRound_eq _ _ _
  rw [e.step_of_lt ht, Engine.roundStep]
  simp only [hw, hvars]

/-- Settles O34: at 64 the step is the feedback step; a block after the head is loaded from the new `H`. -/
theorem feedbackStepEndsOrLoadsNext : Obligations.FeedbackStepEndsOrLoadsNext := by
  intro e ht h'
  have hh : feedback e.h e.vars = h' := feedback_eq e.h e.vars
  refine ⟨fun hlast => ?_, fun b rest hnext => ?_⟩
  · rw [Engine.step_of_eq ht, e.feedbackStep_last hlast, hh]
  · rw [Engine.step_of_eq ht, e.feedbackStep_next b rest hnext, hh]
    rfl

end Sys2Proof.Machine
end

