-- ==== Sys2Proof/Proofs/BlockRun.lean ====
section
/-! A block's run: the rounds done so far are kept by every step of the machine but reset, until the feedback adds
them to the committed `H` (spec/43_compression.md R151). -/

namespace Sys2Proof.Machine

/-! ### The partial result (R148 to R150) -/

/-- A load starts with no round done, on the block's own 16 words (R148). -/
theorem holds_loadBlock (e : Engine) (b : Block) : (e.loadBlock b).Holds b where
  vars_eq := rfl
  w_eq j hj hwritten := by
    have hlow : j < 16 := hwritten.resolve_right (Nat.not_lt_zero j)
    rw [getElem_congr_coll (e.loadBlock_w b), loadSchedule_get, dif_pos hlow, schedule_get_of_lt_16 b j hlow]

/-- A round step does one round more, on the final word `W[t]`, which it computes from final words (R149). -/
theorem Engine.Holds.roundStep {e : Engine} {b : Block} (h : e.Holds b) (ht : e.t.val < 64) :
    (e.roundStep ht).Holds b := by
  have hw (j : Nat) (hj : j < 64) (hwritten : j < 16 ∨ j < e.t.val + 1) :
      (extendSchedule e.w e.t.val ht)[j] = (schedule b)[j] := by
    rw [extendSchedule_congr ht h.w_eq j hj hwritten, getElem_congr_coll (extendSchedule_schedule b e.t.val ht)]
  refine ⟨?_, hw⟩
  rw [e.roundStep_vars, hw _ ht (.inr (Nat.lt_succ_self _)), h.vars_eq]
  exact (rounds_succ _ _ _ ht).symm

/-- After 64 rounds the feedback gives the compression function's value (R140, R147). -/
theorem Engine.Holds.feedback_eq_compress {e : Engine} {b : Block} (h : e.Holds b) (ht : e.t.val = 64) :
    feedback e.h e.vars = compress e.h b := by
  simp only [compress, h.vars_eq, ht]

/-- A feedback ends the command exactly if no block is left after the head (R150). -/
theorem Engine.feedbackStep_idle_iff {e : Engine} (hp : e.phase = .run) :
    e.feedbackStep.phase = .idle ↔ e.pend.tail = [] := by
  cases hb : e.pend.tail with
  | nil => simp [e.feedbackStep_last hb]
  | cons b bs => simp [e.feedbackStep_next b bs hb, hp]

/-! ### Host steps while the engine runs (R55, R192) -/

/-- While running a host write reaches the block buffer, MSGLEN and the error code alone (R55, R192). -/
theorem Engine.hostWrite_run {e : Engine} (hp : e.phase = .run) (off : Nat) (v : Word) :
    ∃ blk msgLen err, e.hostWrite off v = { e with blk := blk, msgLen := msgLen, err := err } := by
  rcases e.hostWrite_cases off v with
    ⟨-, h⟩ | ⟨-, h⟩ | ⟨-, h⟩ | ⟨i, -, hidle, -⟩ | ⟨i, -, -, h⟩ | ⟨j, -, h⟩ | ⟨-, h⟩
  · by_cases hnop : decode v = .nop
    · exact ⟨_, _, _, by rw [h, hnop]; rfl⟩
    · exact ⟨_, _, _, by rw [h, commandEffect_run hnop hp, e.raise_eq]⟩
  · exact ⟨_, _, _, h⟩
  · exact ⟨_, _, _, h⟩
  · exact absurd (hp.symm.trans hidle) nofun
  · exact ⟨_, _, _, by rw [h, e.raise_eq]⟩
  · exact ⟨_, _, _, h⟩
  · exact ⟨_, _, _, h⟩

/-- While running a step without reset is the engine's, or leaves the command and its partial result alone. -/
theorem step_run_cases {s s' : State} (hp : s.engine.phase = .run) (hreset : s.noReset) (hstep : step s = .next s') :
    s'.engine = s.engine.step ∨
    ∃ blk msgLen err, s'.engine = { s.engine with blk := blk, msgLen := msgLen, err := err } := by
  rcases step_cases hstep with ⟨-, rfl⟩ | ⟨op, rest, hm, hhost⟩ | ⟨hm, -⟩
  · exact .inl rfl
  · rcases State.hostStep_cases hhost with
      ⟨off, rfl, -, -, rfl⟩ | ⟨off, v, rfl, -, -, rfl⟩ | ⟨rfl, rfl⟩ | ⟨rfl, rfl⟩
    · exact .inr ⟨_, _, _, s.countHostStep_engine⟩
    · rw [State.setEngine_engine, s.countHostStep_engine]
      exact .inr (Engine.hostWrite_run hp off v)
    · exact .inr ⟨_, _, _, (State.hostPoll_engine _ _).trans s.countHostStep_engine⟩
    · exact absurd (State.mover_host hm ▸ List.mem_cons_self) hreset
  · exact absurd (hp.symm.trans (State.mover_nobody hm).1) nofun

/-- Nothing comes to the host's list but from outside (R59). -/
theorem step_keeps_noReset {s s' : State} (hreset : s.noReset) (hstep : step s = .next s') : s'.noReset := by
  unfold State.noReset at *
  rcases stepsInterleaveHostAndEngine s s' hstep with
    ⟨-, -, h⟩ | ⟨op, rest, htodo, h | ⟨-, -, h⟩⟩ | ⟨-, -, rfl⟩
  · rwa [h]
  · rw [h]
    exact fun hmem => hreset (htodo ▸ List.mem_cons_of_mem op hmem)
  · rwa [h]
  · exact hreset

/-! ### The run of a block (R151) -/

/-- The engine is compressing `b`, the head of the pending blocks `b :: rest`, from the committed digest `d`, and no
reset is to come. -/
structure State.Compressing (s : State) (d : Digest) (b : Block) (rest : List Block) : Prop where
  noReset : s.noReset
  phase_eq : s.engine.phase = .run
  pend_eq : s.engine.pend = b :: rest
  h_eq : s.engine.h = d
  holds : s.engine.Holds b

/-- The block `b` has just been dropped and its result committed. -/
structure State.Compressed (s : State) (d : Digest) (b : Block) (rest : List Block) : Prop where
  pend_eq : s.engine.pend = rest
  h_eq : s.engine.h = compress d b
  idle_iff : s.engine.phase = .idle ↔ rest = []

theorem State.Inv.compressing {s : State} {b : Block} {rest : List Block} (hinv : s.Inv) (hreset : s.noReset)
    (hp : s.engine.phase = .run) (hpend : s.engine.pend = b :: rest) : s.Compressing s.engine.h b rest := by
  obtain ⟨b', rest', hpend', hholds⟩ := hinv.run_holds hp
  obtain ⟨rfl, rfl⟩ := List.cons.inj (hpend.symm.trans hpend')
  exact ⟨hreset, hp, hpend, rfl, hholds⟩

/-- Each step of the machine goes on with the block or ends it. -/
theorem State.Compressing.step {s s' : State} {d : Digest} {b : Block} {rest : List Block}
    (hs : s.Compressing d b rest) (hstep : step s = .next s') :
    s'.Compressing d b rest ∨ s'.Compressed d b rest := by
  obtain ⟨hreset, hp, hpend, rfl, hholds⟩ := hs
  have hreset' := step_keeps_noReset hreset hstep
  rcases step_run_cases hp hreset hstep with hengine | ⟨blk, msgLen, err, hother⟩
  · rcases s.engine.step_cases with ⟨ht, hround⟩ | ⟨ht, hfeedback⟩
    · rw [hround] at hengine
      exact .inl ⟨hreset', by rwa [hengine], by rwa [hengine], by rw [hengine]; rfl,
        hengine ▸ hholds.roundStep ht⟩
    · rw [hfeedback] at hengine
      refine .inr ⟨?_, ?_, ?_⟩
      · rw [hengine, Engine.feedbackStep_pend, hpend, List.tail_cons]
      · rw [hengine, Engine.feedbackStep_h, hholds.feedback_eq_compress ht]
      · rw [hengine, Engine.feedbackStep_idle_iff hp, hpend, List.tail_cons]
  · exact .inl ⟨hreset', by rwa [hother], by rwa [hother], by rw [hother],
      hother ▸ ⟨hholds.vars_eq, hholds.w_eq⟩⟩

/-- A run during which the block stays pending goes on with the block or has just ended it, by induction on the run's
length: only its last step can drop the block, for the pending blocks get fewer by it. -/
theorem State.Compressing.run {s s' : State} {d : Digest} {b : Block} {rest : List Block} {n : Nat}
    (hs : s.Compressing d b rest) (hrun : core.run n s = .next s')
    (hstays : ∀ k u, k < n → core.run k s = .next u → u.engine.pend = b :: rest) :
    s'.Compressing d b rest ∨ s'.Compressed d b rest := by
  induction n generalizing s with
  | zero => cases hrun; exact .inl hs
  | succ n ih =>
    obtain ⟨u, hstep, hrun'⟩ := run_succ_cases hrun
    have hstays' : ∀ k v, k < n → core.run k u = .next v → v.engine.pend = b :: rest := fun k v hk hv =>
      hstays (k + 1) v (by omega) ((run_succ_next k hstep).trans hv)
    rcases hs.step hstep with hu | hu
    · exact ih hu hrun' hstays'
    · cases n with
      | zero => cases hrun'; exact .inr hu
      | succ n =>
        have hpend : rest = b :: rest := hu.pend_eq.symm.trans (hstays' 0 u n.succ_pos rfl)
        exact absurd hpend.symm (List.cons_ne_self b rest)

/-- The run that drops its block: COMPRESS from reset with its 64 rounds done. -/
theorem blockDropped_witness :
    let e := Engine.reset.compressBlk
    let v := rounds (schedule e.blk) (Working.ofDigest e.h) 64 (Nat.le_refl 64)
    let s := State.reset.setEngine { e with t := 64, vars := v, w := schedule e.blk }
    s.Compressing iv e.blk [] ∧ ∃ s', step s = .next s' ∧ s'.Compressed iv e.blk [] := by
  intro e v s
  have hs : s.Compressing iv e.blk [] := ⟨nofun, rfl, rfl, rfl, rfl, fun _ _ _ => rfl⟩
  refine ⟨hs, s.engineStep, rfl, (hs.step rfl).resolve_left fun h => ?_⟩
  exact absurd h.phase_eq nofun

/-- Settles O39: the invariant gives the partial result that the run goes on with. -/
theorem blockIsCompressedWhateverTheHostDoes : Obligations.BlockIsCompressedWhateverTheHostDoes := by
  intro s s' b rest n hinv hreset hp hpend hrun hstays
  rcases (hinv.compressing hreset hp hpend).run hrun hstays with h | h
  · exact .inl ⟨h.pend_eq, h.h_eq, h.phase_eq⟩
  · exact .inr ⟨h.pend_eq, h.h_eq, h.idle_iff⟩

end Sys2Proof.Machine
end

