-- ==== Sys2Proof/Proofs/CommandEffects.lean ====
section
/-! What each command does at its acceptance (spec/44_commands.md R160 to R166, R170): the effect on the engine, what
it leaves unchanged, and what becomes of DONE. -/

namespace Sys2Proof.Machine

open Sys2Proof.Statements

/-! ### The order of the checks (R160) -/

/-- Settles O5: a command changes the engine alone, and by `Command(v)`. -/
theorem commandFollowsTheCheckOrder : Obligations.CommandFollowsTheCheckOrder := by
  intro v s
  rw [exec_eq_effect, commandEffect_decode]
  rfl

/-! ### NOP and INIT (R161, R162) -/

/-- Settles O6: NOP has no effect, so no check stands before it. -/
theorem nopChangesNothing : Obligations.NopChangesNothing := fun v _ hop =>
  ⟨(decode_eq_nop_iff v).2 hop, rfl⟩

theorem Engine.raise_of_err {e : Engine} (he : e.err ≠ 0#4) (c : ErrCode) : e.raise c = e := if_neg he

/-- With an error recorded, INIT is the one command that does anything: a start needs ERR = 0, and no further error
is recorded (R196). -/
theorem commandEffect_of_err {i : Instr} {e : Engine} (he : e.err ≠ 0#4) (hi : i ≠ .init) :
    commandEffect i e = e := by
  rcases commandEffect_cases i e with h | ⟨c, h⟩ | ⟨hinit, -, -⟩ | ⟨-, hzero, -⟩
  · exact h
  · rw [h, Engine.raise_of_err he]
  · exact absurd hinit hi
  · exact absurd hzero he

theorem commandEffect_init {e : Engine} (hp : e.phase = .idle) : commandEffect .init e = e.initDigest :=
  e.whenIdle_idle _ hp

/-- Settles O7: the two phases of INIT, the value of STATUS after it, and the commands dropped for the error. -/
theorem initLoadsTheInitialDigest : Obligations.InitLoadsTheInitialDigest := by
  refine fun v s hop => ⟨(decode_eq_init_iff v).2 hop, fun hp => ⟨?_, ?_⟩, fun hp => ?_, fun _ he i hi => ?_⟩
  · rw [exec_eq_effect, commandEffect_init hp]
    rfl
  · simp [windowRead, hp]
  · rw [exec_eq_effect, commandEffect_run (by decide) hp, Engine.raise_eq_raised]
    rfl
  · rw [exec_eq_effect, commandEffect_of_err he hi]
    rfl

/-! ### COMPRESS and PAD_LAST (R163, R164) -/

theorem commandEffect_compress {e : Engine} (hp : e.phase = .idle) (he : e.err = 0#4) :
    commandEffect .compress e = e.startRun e.blk [] :=
  (e.whenIdle_idle _ hp).trans (e.whenNoError_zero _ he)

theorem commandEffect_padLast_checked {e : Engine} {len : Nat} (hp : e.phase = .idle) (he : e.err = 0#4) :
    commandEffect (.padLast len) e = e.padLastChecked len :=
  (e.whenIdle_idle _ hp).trans (e.whenNoError_zero (fun e => e.padLastChecked len) he)

theorem commandEffect_padLast {e : Engine} {len : Nat} (hp : e.phase = .idle) (he : e.err = 0#4)
    (hn : e.msgLen ≠ 0#64) (hlen : len ≤ 64) :
    ∃ b bs, padLastBlocks e.blk len e.msgLen = b :: bs ∧ commandEffect (.padLast len) e = e.startRun b bs := by
  rw [commandEffect_padLast_checked hp he]
  rcases e.padLastChecked_cases len with ⟨hz, -⟩ | ⟨-, hl, -⟩ | ⟨-, -, hstart⟩
  · exact absurd hz hn
  · omega
  · exact hstart

/-- Settles O8: COMPRESS starts a run on the block buffer. -/
theorem compressIsAccepted : Obligations.CompressIsAccepted := by
  intro s hp he
  rw [exec_eq_effect, commandEffect_compress hp he, Engine.startRun_eq_accepted]
  rfl

/-- Settles O9: PAD_LAST starts a run on its padded blocks, of which there is a first. -/
theorem padLastIsAccepted : Obligations.PadLastIsAccepted := by
  intro s len hp he hn hlen
  obtain ⟨b, bs, hblocks, heffect⟩ := commandEffect_padLast hp he hn hlen
  have hpadded : paddedBlocks len s.engine = b :: bs := hblocks
  rw [exec_eq_effect, heffect, Engine.startRun_eq_accepted, hpadded]
  rfl

/-! ### Reserved opcodes (R165) -/

theorem Engine.rejectOpcode_eq_raised (e : Engine) :
    e.rejectOpcode = raised (if e.phase = .idle then 0x2#4 else 0x1#4) e := by
  rcases e.whenIdle_cases fun e => e.raise .badOp with ⟨hp, h⟩ | ⟨hp, h⟩
  · rw [hp, if_pos rfl]
    exact h.trans (e.raise_eq_raised .badOp)
  · rw [hp, if_neg nofun]
    exact h.trans (e.raise_eq_raised .busy)

theorem Engine.rejectOpcode_done (e : Engine) : e.rejectOpcode.done = e.done := by
  rw [e.rejectOpcode_eq_raised]
  rfl

/-- Settles O12: the opcodes left to the last two rows, and the one effect of both. -/
theorem reservedOpcodesRaiseBadOp : Obligations.ReservedOpcodesRaiseBadOp := by
  refine ⟨fun v hop => ?_, fun s op => ?_⟩
  · rcases decode_cases v with ⟨h, -⟩ | ⟨h, -⟩ | ⟨h, -⟩ | ⟨h, -⟩ | ⟨-, h⟩
    · omega
    · omega
    · omega
    · omega
    · exact h
  · rw [exec_eq_effect, exec_eq_effect, ← Engine.rejectOpcode_eq_raised]
    exact ⟨rfl, rfl⟩

/-! ### What no command and no engine step writes (R170) -/

theorem commandEffect_keeps (i : Instr) (e : Engine) :
    (commandEffect i e).blk = e.blk ∧ (commandEffect i e).msgLen = e.msgLen := by
  rcases commandEffect_cases i e with h | ⟨c, h⟩ | ⟨-, -, h⟩ | ⟨-, -, b, bs, h, -⟩
  · rw [h]; exact ⟨rfl, rfl⟩
  · rw [h]; exact ⟨e.raise_blk c, e.raise_msgLen c⟩
  · rw [h]; exact ⟨rfl, rfl⟩
  · rw [h]; exact ⟨rfl, rfl⟩

/-- What the host wrote, and the error recorded, are left alone by the engine's own steps (R170, R197). -/
theorem Engine.advance_keeps (e : Engine) :
    e.advance.blk = e.blk ∧ e.advance.msgLen = e.msgLen ∧ e.advance.err = e.err := by
  cases hp : e.phase with
  | idle => rw [e.advance_idle hp]; exact ⟨rfl, rfl, rfl⟩
  | run => rw [e.advance_run hp]; exact ⟨e.step_blk, e.step_msgLen, e.step_err⟩

theorem Engine.advanceN_keeps (e : Engine) (n : Nat) :
    (e.advanceN n).blk = e.blk ∧ (e.advanceN n).msgLen = e.msgLen ∧ (e.advanceN n).err = e.err := by
  induction n generalizing e with
  | zero => exact ⟨rfl, rfl, rfl⟩
  | succ n ih =>
    obtain ⟨hblk, hlen, herr⟩ := ih e.advance
    obtain ⟨hblk', hlen', herr'⟩ := e.advance_keeps
    exact ⟨hblk.trans hblk', hlen.trans hlen', herr.trans herr'⟩

/-- Settles O16: every effect of a command, and every engine step. -/
theorem engineNeverWritesBlkOrMsgLen : Obligations.EngineNeverWritesBlkOrMsgLen := by
  refine ⟨fun i s s' hexec => ?_, fun n e => ?_⟩
  · rw [exec_eq_effect] at hexec
    cases hexec
    obtain ⟨hblk, hlen⟩ := commandEffect_keeps i s.engine
    exact ⟨hblk, hlen, rfl, rfl⟩
  · obtain ⟨hblk, hlen, -⟩ := e.advanceN_keeps n
    exact ⟨hblk, hlen⟩

/-! ### DONE (R166) -/

/-- The words that an idle engine accepts as COMPRESS or PAD_LAST (R160): those past the checks. -/
abbrev StartsRun (v : Word) (e : Engine) : Prop :=
  e.err = 0#4 ∧ (v.toNat % 16 = 0x2 ∨ (v.toNat % 16 = 0x3 ∧ e.msgLen ≠ 0#64 ∧ v.toNat / 16 % 128 ≤ 64))

/-- DONE after a command word: INIT sets it and a start clears it, both from an idle engine only. -/
theorem commandEffect_decode_done (v : Word) (e : Engine) :
    (commandEffect (decode v) e).done =
      if e.phase = .run then e.done else if v.toNat % 16 = 0x1 then true else if StartsRun v e then false
      else e.done := by
  cases hp : e.phase with
  | run =>
    rw [if_pos rfl]
    by_cases hnop : decode v = .nop
    · rw [hnop]
      rfl
    · rw [commandEffect_run hnop hp, e.raise_done]
  | idle =>
    rw [if_neg nofun]
    rcases decode_cases v with ⟨hop, hd⟩ | ⟨hop, hd⟩ | ⟨hop, hd⟩ | ⟨hop, hd⟩ | ⟨hop, hd⟩
    · simp [hd, hop, commandEffect]
    · rw [hd, commandEffect_init hp, if_pos hop, e.initDigest_done]
    · by_cases he : e.err = 0#4
      · simp [hd, commandEffect_compress hp he, hop, he]
      · simp [hd, commandEffect_of_err he, he, hop]
    · by_cases he : e.err = 0#4
      · rw [hd, commandEffect_padLast_checked hp he]
        rcases e.padLastChecked_cases (v.toNat / 16 % 128) with ⟨hn, h⟩ | ⟨-, hlen, h⟩ | ⟨hn, hlen, b, bs, -, h⟩
        · simp [h, hop, hn]
        · simp [h, hop, hlen]
        · simp [h, hop, he, hn, hlen]
      · simp [hd, commandEffect_of_err he, he, hop]
    · have hnone : ¬ StartsRun v e := fun ⟨_, h⟩ => by omega
      rw [if_neg (by omega), if_neg hnone]
      rcases hd with hd | hd
      · rw [hd]
        exact e.rejectOpcode_done
      · rw [hd]
        exact e.rejectOpcode_done

theorem Engine.hostWrite_done (e : Engine) {off : Nat} (v : Word) (hoff : off ≠ 0x00) :
    (e.hostWrite off v).done = e.done := by
  rcases e.hostWrite_cases off v with
    ⟨h0, -⟩ | ⟨-, h⟩ | ⟨-, h⟩ | ⟨i, -, -, h⟩ | ⟨i, -, -, h⟩ | ⟨j, -, h⟩ | ⟨-, h⟩
  · exact absurd h0 hoff
  · rw [h, e.writeMsgLenLo_done]
  · rw [h, e.writeMsgLenHi_done]
  · rw [h]
  · rw [h, e.raise_done]
  · rw [h, e.writeBlk_done]
  · rw [h]

/-- DONE after an engine step: the feedback of the last pending block sets it (R150). -/
theorem Engine.step_done (e : Engine) :
    e.step.done = if e.t.val = 64 ∧ e.pend.tail = [] then true else e.done := by
  rcases e.step_cases with ⟨ht, h⟩ | ⟨ht, h⟩
  · rw [h, if_neg (by omega), e.roundStep_done]
  · rw [h]
    cases hb : e.pend.tail with
    | nil => simp [e.feedbackStep_last hb, ht]
    | cons b bs => simp [e.feedbackStep_next b bs hb]

/-- Settles O19: who moves, and for the host what it does; a write counts at CMD alone. -/
theorem doneFollowsItsRule : Obligations.DoneFollowsItsRule := by
  intro s s' hstep
  rcases step_cases hstep with ⟨hm, rfl⟩ | ⟨op, rest, hm, hhost⟩ | ⟨hm, rfl⟩
  · rw [doneAfter, hm]
    exact s.engine.step_done
  · rw [doneAfter, hm]
    rcases State.hostStep_cases hhost with
      ⟨off, rfl, -, -, rfl⟩ | ⟨off, v, rfl, -, -, rfl⟩ | ⟨rfl, rfl⟩ | ⟨rfl, rfl⟩
    · simp
    · simp only [State.setEngine_engine, State.countHostStep_engine]
      by_cases hoff : off = 0x00
      · rw [Engine.hostWrite, hoff, if_pos registerAt_cmd, commandEffect_decode_done]
        simp
      · rw [s.engine.hostWrite_done v hoff, if_pos (.inl hoff)]
    · simp
    · rfl
  · rw [doneAfter, hm]

end Sys2Proof.Machine
end

