-- ==== Sys2Proof/Proofs/CommandRuns.lean ====
section
/-! The engine left alone after the acceptance of COMPRESS or PAD_LAST (spec/44_commands.md R163, R164): 65 steps for
each pending block, 64 rounds and a feedback, and the command is finished (R151, R152, R229). -/

namespace Sys2Proof.Machine

open Sys2Proof.Statements

/-- The engine is `k` rounds into the compression of `b`, the head of the pending blocks `b :: rest`, from the
committed digest `d`. -/
structure Engine.Running (e : Engine) (d : Digest) (b : Block) (rest : List Block) (k : Nat) : Prop where
  phase_eq : e.phase = .run
  done_eq : e.done = false
  pend_eq : e.pend = b :: rest
  h_eq : e.h = d
  t_eq : e.t.val = k
  holds : e.Holds b

/-- The engine has finished a command that left the digest `d`. -/
structure Engine.Finished (e : Engine) (d : Digest) : Prop where
  phase_eq : e.phase = .idle
  done_eq : e.done = true
  pend_eq : e.pend = []
  h_eq : e.h = d

/-! ### One block -/

theorem running_startRun (e : Engine) (b : Block) (bs : List Block) : (e.startRun b bs).Running e.h b bs 0 :=
  ⟨rfl, rfl, rfl, rfl, rfl, holds_loadBlock _ b⟩

section

variable {e : Engine} {d : Digest} {b : Block} {rest : List Block}

theorem Engine.Running.advance_round {k : Nat} (h : e.Running d b rest k) (hk : k < 64) :
    e.advance.Running d b rest (k + 1) := by
  have ht : e.t.val < 64 := h.t_eq ▸ hk
  rw [e.advance_run h.phase_eq, e.step_of_lt ht]
  exact ⟨h.phase_eq, h.done_eq, h.pend_eq, h.h_eq, congrArg (· + 1) h.t_eq, h.holds.roundStep ht⟩

theorem Engine.Running.advanceN_rounds {k : Nat} (h : e.Running d b rest 0) (hk : k ≤ 64) :
    (e.advanceN k).Running d b rest k := by
  induction k with
  | zero => exact h
  | succ k ih =>
    rw [e.advanceN_add k 1]
    exact (ih (by omega)).advance_round hk

/-- The feedback of the last block finishes the command (R150). -/
theorem Engine.Running.advance_last (h : e.Running d b [] 64) : e.advance.Finished (compress d b) := by
  have hlast : e.pend.tail = [] := by rw [h.pend_eq, List.tail_cons]
  have hh : feedback e.h e.vars = compress d b := by rw [h.holds.feedback_eq_compress h.t_eq, h.h_eq]
  rw [e.advance_run h.phase_eq, Engine.step_of_eq h.t_eq, e.feedbackStep_last hlast]
  exact ⟨rfl, rfl, rfl, hh⟩

/-- The feedback of a block that has another behind it starts that one, from the digest just committed (R150). -/
theorem Engine.Running.advance_next {b' : Block} (h : e.Running d b (b' :: rest) 64) :
    e.advance.Running (compress d b) b' rest 0 := by
  have hnext : e.pend.tail = b' :: rest := by rw [h.pend_eq, List.tail_cons]
  have hh : feedback e.h e.vars = compress d b := by rw [h.holds.feedback_eq_compress h.t_eq, h.h_eq]
  rw [e.advance_run h.phase_eq, Engine.step_of_eq h.t_eq, e.feedbackStep_next b' rest hnext]
  exact ⟨h.phase_eq, h.done_eq, rfl, hh, rfl, holds_loadBlock _ b'⟩

theorem Engine.Running.advanceN_block {b' : Block} (h : e.Running d b (b' :: rest) 0) :
    (e.advanceN 65).Running (compress d b) b' rest 0 := by
  rw [e.advanceN_add 64 1]
  exact (h.advanceN_rounds (Nat.le_refl 64)).advance_next

/-! ### All pending blocks -/

/-- Until the last feedback a block is being compressed, from the digest that the blocks before it have left. -/
theorem Engine.Running.advanceN_running {k : Nat} (h : e.Running d b rest 0) (hk : k < 65 * (rest.length + 1)) :
    ∃ b' rest', (e.advanceN k).Running (compressAll d ((b :: rest).take (k / 65))) b' rest' (k % 65) := by
  induction rest generalizing e d b k with
  | nil =>
    rw [List.length_nil] at hk
    rw [Nat.div_eq_of_lt hk, Nat.mod_eq_of_lt hk]
    exact ⟨b, [], h.advanceN_rounds (by omega)⟩
  | cons b' rest ih =>
    by_cases hfirst : k < 65
    · rw [Nat.div_eq_of_lt hfirst, Nat.mod_eq_of_lt hfirst]
      exact ⟨b, b' :: rest, h.advanceN_rounds (by omega)⟩
    · obtain ⟨j, rfl⟩ := Nat.exists_eq_add_of_le (Nat.le_of_not_lt hfirst)
      rw [List.length_cons] at hk
      rw [e.advanceN_add, Nat.add_div_left j (by decide), Nat.add_mod_left]
      exact ih h.advanceN_block (by omega)

/-- After 65 steps for each block the command is finished, its digest the fold over the blocks; an idle engine takes
no step beyond those (R208). -/
theorem Engine.Running.advanceN_finished {n : Nat} (h : e.Running d b rest 0) (hn : 65 * (rest.length + 1) ≤ n) :
    (e.advanceN n).Finished (compressAll d (b :: rest)) := by
  induction rest generalizing e d b n with
  | nil =>
    obtain ⟨j, rfl⟩ := Nat.exists_eq_add_of_le hn
    have hfinished : (e.advanceN 65).Finished (compress d b) := by
      rw [e.advanceN_add 64 1]
      exact (h.advanceN_rounds (Nat.le_refl 64)).advance_last
    rw [e.advanceN_add]
    exact (Engine.advanceN_idle _ j hfinished.phase_eq).symm ▸ hfinished
  | cons b' rest ih =>
    rw [List.length_cons] at hn
    obtain ⟨j, rfl⟩ := Nat.exists_eq_add_of_le (show 65 ≤ n by omega)
    rw [e.advanceN_add]
    exact ih h.advanceN_block (by omega)

end

/-! ### COMPRESS and PAD_LAST -/

/-- Settles O35: a run of one block. -/
theorem compressFinishesWithItsDigest : Obligations.CompressFinishesWithItsDigest := by
  intro s hp he
  have hrun := running_startRun s.engine s.engine.blk []
  have hfin := hrun.advanceN_finished (Nat.le_refl 65)
  obtain ⟨hblk, hlen, herr⟩ := (s.engine.startRun s.engine.blk []).advanceN_keeps 65
  refine ⟨s.setEngine (s.engine.startRun s.engine.blk []), ?_, fun k hk => ?_, hfin.phase_eq, hfin.h_eq, hfin.done_eq,
    herr.trans he, hblk, hlen, hfin.pend_eq⟩
  · rw [exec_eq_effect, commandEffect_compress hp he]
  · have hk' := hrun.advanceN_rounds (Nat.le_of_lt_succ hk)
    exact ⟨hk'.phase_eq, hk'.h_eq, hk'.done_eq⟩

theorem padLastBlocks_length (blk : Block) (len : Nat) (n : BitVec 64) :
    (padLastBlocks blk len n).length = numPadBlocks len := by
  rw [padLastBlocks, List.length_map, padBlocks_length]

/-- Settles O36: a run of one block or of two. -/
theorem padLastFinishesWithItsDigest : Obligations.PadLastFinishesWithItsDigest := by
  intro s len hp he hn hlen bs n
  obtain ⟨b, rest, hblocks, heffect⟩ := commandEffect_padLast hp he hn hlen
  have hbs : bs = b :: rest := hblocks
  have hsteps : n = 65 * (rest.length + 1) := by
    rw [← List.length_cons, ← hblocks, padLastBlocks_length]
    exact (apply_ite (65 * ·) (len < 56) 1 2).symm
  have hrun := running_startRun s.engine b rest
  have hfin := hrun.advanceN_finished hsteps.ge
  obtain ⟨hblk, hmsgLen, herr⟩ := (s.engine.startRun b rest).advanceN_keeps n
  rw [hbs]
  refine ⟨s.setEngine (s.engine.startRun b rest), ?_, fun k hk => ?_, hfin.phase_eq, hfin.h_eq, hfin.done_eq,
    herr.trans he, hblk, hmsgLen, hfin.pend_eq⟩
  · rw [exec_eq_effect, heffect]
  · obtain ⟨b', rest', hk'⟩ := hrun.advanceN_running (hsteps ▸ hk)
    refine ⟨hk'.phase_eq, hk'.done_eq, ?_⟩
    by_cases hfirst : k < 65
    · have hcount : k / 65 = 0 := by omega
      exact .inl ⟨hfirst, hk'.h_eq.trans (by rw [hcount]; rfl)⟩
    · have hn130 : n ≤ 130 := by simp only [n]; split <;> omega
      have hcount : k / 65 = 1 := by omega
      exact .inr ⟨by omega, b, rfl, hk'.h_eq.trans (by rw [hcount]; rfl)⟩

end Sys2Proof.Machine
end

