-- ==== Sys2Proof/Proofs/HashMessage.lean ====
section
/-! The host's part of hashing (spec/44_commands.md R167, R169): the commands of HashMessage fold the compression
function over the padded message, and the two ways to finish agree. -/

namespace Sys2Proof.Machine

open Sys2Proof.Statements

/-! ### The bytes written to the block buffer (R58, R121) -/

/-- The bytes of a word put together by `BE32` are the four it was made of: byte `k` is the eight bits from `24 - 8k`
up (R9). -/
theorem wordByte_be32 (bytes : Nat → Byte) {k : Nat} (hk : k < 4) :
    wordByte (be32 (bytes 0) (bytes 1) (bytes 2) (bytes 3)) k = bytes k := by
  apply BitVec.eq_of_getLsbD_eq
  intro i hi
  rw [wordByte_getLsbD, be32_getLsbD _ _ _ _ _ (by omega)]
  interval_cases k <;> grind

theorem blkByte_toWords (bytes : List Byte) (k : Fin 64) : blkByte (toWords bytes) k = bytes.getD k.val 0#8 := by
  have hk : k.val = 4 * (k.val / 4) + k.val % 4 := (Nat.div_add_mod _ _).symm
  have hmod : k.val % 4 < 4 := Nat.mod_lt _ (by decide)
  rw [blkByte, toWords_get]
  exact (wordByte_be32 (fun i => bytes.getD (4 * (k.val / 4) + i) 0#8) hmod).trans (by rw [← hk])

/-- PAD_LAST takes from the block buffer the first bytes that the host wrote there. -/
theorem tailBytes_toWords {bytes : List Byte} {len : Nat} (hlen : len ≤ 64) (hbytes : len ≤ bytes.length) :
    tailBytes (toWords bytes) len = bytes.take len := by
  refine List.ext_getElem ?_ fun i hi hi' => ?_
  · rw [tailBytes_length _ _ hlen, List.length_take, Nat.min_eq_left hbytes]
  · have hlt : i < len := tailBytes_length (toWords bytes) len hlen ▸ hi
    rw [tailBytes_get _ _ _ hi (by omega), blkByte_toWords, List.getElem_take,
      List.getD_eq_getElem _ _ (hlt.trans_le hbytes)]

/-! ### Commands run to their end -/

theorem compressAll_cons (d : Digest) (b : Block) (bs : List Block) :
    compressAll d (b :: bs) = compressAll (compress d b) bs := rfl

theorem compressAll_append (d : Digest) (bs cs : List Block) :
    compressAll d (bs ++ cs) = compressAll (compressAll d bs) cs :=
  List.foldl_append

/-- The engine can take the next command of a hash that has come to the digest `d`. -/
structure State.Ready (s : State) (d : Digest) : Prop where
  phase_eq : s.engine.phase = .idle
  err_eq : s.engine.err = 0#4
  done_eq : s.engine.done = true
  h_eq : s.engine.h = d

theorem afterCommand_eq (i : Instr) (s : State) :
    afterCommand i s = s.setEngine ((commandEffect i s.engine).advanceN 130) := by
  rw [afterCommand, exec_eq_effect]
  rfl

/-- INIT needs no engine step, whatever the error before it (R162). -/
theorem ready_afterCommand_init {s : State} (hp : s.engine.phase = .idle) : (afterCommand .init s).Ready iv := by
  rw [afterCommand_eq, commandEffect_init hp, Engine.advanceN_idle _ _ (s.engine.initDigest_phase.trans hp)]
  exact ⟨hp, rfl, rfl, rfl⟩

/-- A run of at most two blocks is over after 130 steps (R229). -/
theorem ready_of_startRun {s : State} {b : Block} {bs : List Block} (he : s.engine.err = 0#4) (hbs : bs.length ≤ 1) :
    (s.setEngine ((s.engine.startRun b bs).advanceN 130)).Ready (compressAll s.engine.h (b :: bs)) := by
  have hfin := (running_startRun s.engine b bs).advanceN_finished (n := 130) (by omega)
  obtain ⟨-, -, herr⟩ := (s.engine.startRun b bs).advanceN_keeps 130
  exact ⟨hfin.phase_eq, herr.trans he, hfin.done_eq, hfin.h_eq⟩

section

variable {s : State} {d : Digest}

theorem State.Ready.compress (hs : s.Ready d) :
    (afterCommand .compress s).Ready (Machine.compress d s.engine.blk) := by
  obtain ⟨hp, he, -, rfl⟩ := hs
  rw [afterCommand_eq, commandEffect_compress hp he]
  exact ready_of_startRun he (Nat.zero_le 1)

theorem State.Ready.padLast {len : Nat} (hs : s.Ready d) (hn : s.engine.msgLen ≠ 0#64) (hlen : len ≤ 64) :
    (afterCommand (.padLast len) s).Ready (compressAll d (padLastBlocks s.engine.blk len s.engine.msgLen)) := by
  obtain ⟨hp, he, -, rfl⟩ := hs
  obtain ⟨b, bs, hblocks, heffect⟩ := commandEffect_padLast hp he hn hlen
  have hcount : bs.length + 1 ≤ 2 := by
    rw [← List.length_cons, ← hblocks, padLastBlocks_length, numPadBlocks]
    split <;> decide
  rw [afterCommand_eq, heffect, hblocks]
  exact ready_of_startRun he (by omega)

/-- The host's writes of the operands leave the digest and the flags alone (R55). -/
theorem State.Ready.withBlk (hs : s.Ready d) (b : Block) : (Statements.withBlk b s).Ready d :=
  ⟨hs.phase_eq, hs.err_eq, hs.done_eq, hs.h_eq⟩

theorem State.Ready.withMsgLen (hs : s.Ready d) (n : Nat) : (Statements.withMsgLen n s).Ready d :=
  ⟨hs.phase_eq, hs.err_eq, hs.done_eq, hs.h_eq⟩

/-- The loop of HashMessage: one COMPRESS for each block written. -/
theorem State.Ready.foldl_compress {α : Type} (hs : s.Ready d) (block : α → Block) (js : List α) :
    (js.foldl (fun u j => afterCommand .compress (Statements.withBlk (block j) u)) s).Ready
      (compressAll d (js.map block)) := by
  induction js generalizing s d with
  | nil => exact hs
  | cons j js ih =>
    have hnext : (afterCommand .compress (Statements.withBlk (block j) s)).Ready (Machine.compress d (block j)) :=
      (hs.withBlk (block j)).compress
    rw [List.foldl_cons, List.map_cons, compressAll_cons]
    exact ih hnext

end

/-! ### The whole hash (R167) -/

/-- The padded blocks of the tail as the host wrote it, whatever bytes stand past it. -/
theorem padLastBlocks_lastChunk (m junk : List Byte) (n : BitVec 64) :
    padLastBlocks (toWords (lastChunk m ++ junk)) (lastLength m.length) n =
      (padBlocks (lastChunk m) (lastLength m.length) n).map toWords := by
  rw [padLastBlocks, tailBytes_toWords (lastLength_le _) (by rw [List.length_append, lastChunk_length]; omega),
    List.take_left' (lastChunk_length m)]

theorem digestOf_eq (m : List Byte) :
    digestOf m = compressAll (compressAll iv ((List.range (chunkCount m.length)).map fun j => toWords (chunk m j)))
      ((padBlocks (lastChunk m) (lastLength m.length) (BitVec.ofNat 64 m.length)).map toWords) := by
  rw [digestOf, padMessage, List.map_append, compressAll_append, List.map_map]
  rfl

/-- Settles O56: INIT, the chunks by induction, and PAD_LAST, whose length is not 0 below 2^61. -/
theorem hashCommandsFoldThePaddedMessage : Obligations.HashCommandsFoldThePaddedMessage := by
  intro m junk s hpos hlt hp
  have hn : BitVec.ofNat 64 m.length ≠ 0#64 := by
    rw [ne_eq, ← BitVec.toNat_inj, BitVec.toNat_ofNat, BitVec.toNat_ofNat]
    omega
  have hchunks := (ready_afterCommand_init hp).foldl_compress (fun j => toWords (chunk m j))
    (List.range (chunkCount m.length))
  have hend := ((hchunks.withBlk (toWords (lastChunk m ++ junk))).withMsgLen m.length).padLast hn
    (lastLength_le m.length)
  obtain ⟨hphase, herr, hdone, hh⟩ := hend
  refine ⟨?_, herr, hdone, hphase⟩
  rw [digestOf_eq, ← padLastBlocks_lastChunk m junk]
  exact hh

/-! ### Two ways to finish (R169) -/

/-- Settles O47: PAD_LAST 64 puts the marker in the second block, which is then the block of PAD_LAST 0. -/
theorem finalSplitsAreEquivalent : Obligations.FinalSplitsAreEquivalent := by
  intro d blk blk' n
  have hfull : padLastBlocks blk 64 n = blk :: padLastBlocks blk' 0 n :=
    congrArg (· :: _) (toWords_tailBytes blk)
  rw [hfull]
  rfl

end Sys2Proof.Machine
end

