-- ==== Sys2Proof/Proofs/DigestBytes.lean ====
section
/-! The serialized digest (spec/44_commands.md R168): bytes and hexadecimal digits are pieces of the words, as many
for each word and the words in order. -/

namespace Sys2Proof.Machine

/-! ### Lists made of pieces of one length -/

section

variable {α β : Type} {c : Nat} {f : α → List β}

theorem length_flatMap_of_length (hf : ∀ a, (f a).length = c) (l : List α) :
    (l.flatMap f).length = c * l.length := by
  simp [List.length_flatMap, hf, Nat.mul_comm]

theorem getElem?_flatMap_of_length (hf : ∀ a, (f a).length = c) (l : List α) (i : Nat) {k : Nat} (hk : k < c) :
    (l.flatMap f)[c * i + k]? = l[i]?.bind fun a => (f a)[k]? := by
  induction l generalizing i with
  | nil => rfl
  | cons a l ih =>
    rw [List.flatMap_cons]
    cases i with
    | zero =>
      rw [Nat.mul_zero, Nat.zero_add, List.getElem?_append_left (by rwa [hf])]
      rfl
    | succ i =>
      have hindex : c * (i + 1) + k = c + (c * i + k) := by rw [Nat.mul_succ]; omega
      rw [hindex, List.getElem?_append_right (by rw [hf]; omega), hf, Nat.add_sub_cancel_left, ih]
      rfl

end

/-! ### The pieces of a digest's words -/

/-- `c` pieces of each word, in the order of the words: the form of `digestBytes` and of `hexDigest`. -/
def digestPieces {β : Type} (c : Nat) (piece : Word → Nat → β) (d : Digest) : List β :=
  d.toList.flatMap fun v => (List.range c).map (piece v)

section

variable {β : Type} {c : Nat} (piece : Word → Nat → β) (d : Digest)

theorem digestPieces_length : (digestPieces c piece d).length = c * 8 := by
  rw [digestPieces, length_flatMap_of_length (c := c) (by simp), Vector.length_toList]

theorem digestPieces_getElem? (i : Fin 8) {k : Nat} (hk : k < c) :
    (digestPieces c piece d)[c * i.val + k]? = some (piece d[i] k) := by
  rw [digestPieces, getElem?_flatMap_of_length (by simp) _ _ hk]
  simp [hk]

end

theorem digestBytes_eq_pieces (d : Digest) : digestBytes d = digestPieces 4 wordByte d := rfl

theorem hexDigest_eq_pieces (upper : Bool) (d : Digest) :
    hexDigest upper d = digestPieces 8 (fun v k => hexDigit upper (v.extractLsb' (28 - 4 * k) 4)) d := rfl

theorem extractLsb'_eq_ofNat_div (v : Word) (start len : Nat) :
    v.extractLsb' start len = BitVec.ofNat len (v.toNat / 2 ^ start) := by
  rw [← Nat.shiftRight_eq_div_pow]
  rfl

/-- Settles O55: 4 bytes or 8 digits of each word, and each is a field of the word. -/
theorem digestIsSerializedBigEndian : Obligations.DigestIsSerializedBigEndian := by
  refine fun d upper => ⟨digestPieces_length wordByte d, digestPieces_length _ d, fun i k => ?_, fun i j => ?_⟩
  · rw [digestBytes_eq_pieces, digestPieces_getElem? _ _ _ k.isLt, wordByte, extractLsb'_eq_ofNat_div]
  · rw [hexDigest_eq_pieces, digestPieces_getElem? _ _ _ j.isLt, extractLsb'_eq_ofNat_div]

end Sys2Proof.Machine
end

