-- ==== Sys2Proof/Proofs/Invariant.lean ====
section
/-! The invariant is kept by every step (spec/10_state.md, spec/43_compression.md, spec/44_commands.md). It says of an
idle engine that nothing is pending and of a running one that it is `Running`; each host write and each engine step
gives one of the two again. -/

namespace Sys2Proof.Machine

/-! ### The invariant by phase -/

/-- Of an idle engine the invariant asks for the error code and the pending blocks only. -/
theorem Engine.inv_of_idle {e : Engine} (hp : e.phase = .idle) (herr : e.err.toNat ≤ 4) (hpend : e.pend = []) :
    e.Inv where
  err_produced := herr
  pend_bounded := by simp [hpend]
  idle_empty _ := hpend
  run_not_done hr := absurd (hp.symm.trans hr) nofun
  run_holds hr := absurd (hp.symm.trans hr) nofun

section

variable {e : Engine} {d : Digest} {b : Block} {rest : List Block} {k : Nat}

theorem Engine.Running.inv (h : e.Running d b rest k) (herr : e.err.toNat ≤ 4) (hrest : rest.length ≤ 1) : e.Inv where
  err_produced := herr
  pend_bounded := by rw [h.pend_eq, List.length_cons]; omega
  idle_empty hp := absurd (h.phase_eq.symm.trans hp) nofun
  run_not_done _ := h.done_eq
  run_holds _ := ⟨b, rest, h.pend_eq, h.holds⟩

theorem Engine.Inv.running (h : e.Inv) (hp : e.phase = .run) :
    ∃ b rest, e.Running e.h b rest e.t.val ∧ rest.length ≤ 1 := by
  obtain ⟨b, rest, hpend, hholds⟩ := h.run_holds hp
  have hbound := h.pend_bounded
  rw [hpend, List.length_cons] at hbound
  exact ⟨b, rest, ⟨hp, h.run_not_done hp, hpend, rfl, rfl, hholds⟩, by omega⟩

/-! ### The engine's own steps (R149, R150) -/

/-- A round goes on with the block; the feedback ends the command or goes on with the second block. -/
theorem Engine.Inv.advance (h : e.Inv) : e.advance.Inv := by
  obtain ⟨-, -, hkeep⟩ := e.advance_keeps
  have herr : e.advance.err.toNat ≤ 4 := hkeep ▸ h.err_produced
  cases hp : e.phase with
  | idle => rwa [e.advance_idle hp]
  | run =>
    obtain ⟨b, rest, hrun, hrest⟩ := h.running hp
    by_cases ht : e.t.val < 64
    · exact (hrun.advance_round ht).inv herr hrest
    · have ht64 : e.t.val = 64 := by omega
      rw [ht64] at hrun
      cases rest with
      | nil => exact Engine.inv_of_idle hrun.advance_last.phase_eq herr hrun.advance_last.pend_eq
      | cons b' rest => exact hrun.advance_next.inv herr (by rw [List.length_cons] at hrest; omega)

/-! ### Commands and host writes (R55, R160) -/

/-- The operands the host writes stand outside the invariant, and a new error code has only to be one that is
produced. -/
theorem Engine.Inv.withInputs (h : e.Inv) (blk : Block) (msgLen : BitVec 64) {err : BitVec 4}
    (herr : err.toNat ≤ 4) : ({ e with blk := blk, msgLen := msgLen, err := err } : Engine).Inv :=
  { h with
    err_produced := herr
    run_holds := fun hp =>
      let ⟨b, rest, hpend, hholds⟩ := h.run_holds hp
      ⟨b, rest, hpend, hholds.vars_eq, hholds.w_eq⟩ }

/-- The codes that are produced are 1 to 4 (R191). -/
theorem ErrCode.bits_le (c : ErrCode) : c.bits.toNat ≤ 4 := by
  cases c <;> decide

theorem Engine.Inv.raise (h : e.Inv) (c : ErrCode) : (e.raise c).Inv := by
  rw [e.raise_eq]
  refine h.withInputs e.blk e.msgLen ?_
  split
  · exact c.bits_le
  · exact h.err_produced

theorem Engine.Inv.startRun (h : e.Inv) (hrest : rest.length ≤ 1) : (e.startRun b rest).Inv :=
  (running_startRun e b rest).inv h.err_produced hrest

/-- The padded tail is at most two blocks (R126). -/
theorem padLastBlocks_length_le (blk : Block) (len : Nat) (n : BitVec 64) :
    (padLastBlocks blk len n).length ≤ 2 := by
  rw [padLastBlocks_length, numPadBlocks]
  split <;> decide

theorem Engine.Inv.commandEffect (h : e.Inv) (i : Instr) : (commandEffect i e).Inv := by
  rcases commandEffect_cases i e with heq | ⟨c, heq⟩ | ⟨-, hp, heq⟩ | ⟨-, -, b, bs, heq, hblocks⟩
  · rwa [heq]
  · rw [heq]
    exact h.raise c
  · rw [heq]
    exact Engine.inv_of_idle hp (Nat.zero_le 4) (h.idle_empty hp)
  · rw [heq]
    rcases hblocks with ⟨-, -, rfl⟩ | ⟨len, -, -, -, hpad⟩
    · exact h.startRun (Nat.zero_le 1)
    · have hcount := padLastBlocks_length_le e.blk len e.msgLen
      rw [hpad, List.length_cons] at hcount
      exact h.startRun (by omega)

theorem Engine.Inv.hostWrite (h : e.Inv) (off : Nat) (v : Word) : (e.hostWrite off v).Inv := by
  rcases e.hostWrite_cases off v with
    ⟨-, heq⟩ | ⟨-, heq⟩ | ⟨-, heq⟩ | ⟨i, -, hp, heq⟩ | ⟨i, -, -, heq⟩ | ⟨j, -, heq⟩ | ⟨-, heq⟩
  · rw [heq]
    exact h.commandEffect (decode v)
  · rw [heq]
    exact h.withInputs e.blk _ h.err_produced
  · rw [heq]
    exact h.withInputs e.blk _ h.err_produced
  · rw [heq]
    exact Engine.inv_of_idle hp h.err_produced (h.idle_empty hp)
  · rw [heq]
    exact h.raise .busy
  · rw [heq]
    exact h.withInputs _ e.msgLen h.err_produced
  · rwa [heq]

end

/-- Settles O38: the engine's step, the host's write and reset each keep the invariant; no other step changes the
engine. -/
theorem everyStepKeepsTheInvariant : Obligations.EveryStepKeepsTheInvariant := by
  intro s s' hinv hstep
  rcases step_cases hstep with ⟨hm, rfl⟩ | ⟨op, rest, -, hhost⟩ | ⟨-, rfl⟩
  · have hadvance := hinv.advance
    rwa [s.engine.advance_run (State.mover_engine hm)] at hadvance
  · have hcount : s.countHostStep.Inv := by rwa [State.Inv, s.countHostStep_engine]
    rcases State.hostStep_cases hhost with
      ⟨off, -, -, -, rfl⟩ | ⟨off, v, -, -, -, rfl⟩ | ⟨-, rfl⟩ | ⟨-, rfl⟩
    · exact hcount
    · exact hcount.hostWrite off v
    · rwa [State.Inv, State.hostPoll_engine]
    · exact resetMeetsTheInvariant
  · exact hinv

end Sys2Proof.Machine
end

