-- ==== Sys2Proof/Proofs/Errors.lean ====
section
/-! The error model (spec/60_exceptions.md R190 to R198): which code is recorded and when, what an error leaves
unchanged, and what clears it. Then the independence of the instances of a platform (R206). -/

namespace Sys2Proof.Machine

open Sys2Proof.Statements

/-! ### Recording an error (R190) -/

/-- Settles O15: the codes' numbers are R191's. -/
theorem raiseRecordsTheFirstError : Obligations.RaiseRecordsTheFirstError := fun e =>
  ⟨e.raise_eq_raised .busy, e.raise_eq_raised .badOp, e.raise_eq_raised .empty, e.raise_eq_raised .tail⟩

theorem raised_of_no_error {e : Engine} (he : e.err = 0#4) (code : BitVec 4) :
    raised code e = { e with err := code } := by
  rw [raised, if_pos he]

/-- Settles O14: a command other than INIT has no effect. -/
theorem stickyErrorDropsLaterCommands : Obligations.StickyErrorDropsLaterCommands := by
  intro s _ he
  have dropped (i : Instr) (hi : i ≠ .init) : exec i s = .next s := by
    rw [exec_eq_effect, commandEffect_of_err he hi]
    rfl
  exact ⟨dropped _ nofun, fun _ => dropped _ nofun, fun _ => ⟨dropped _ nofun, dropped _ nofun⟩⟩

/-- Settles O17: `exec` is an effect on the engine, and INIT is the one that writes `H`. -/
theorem noCommandStopsTheMachine : Obligations.NoCommandStopsTheMachine := by
  refine fun i s => ⟨_, exec_eq_effect i s, fun hi => ?_⟩
  rcases commandEffect_h_cases i s.engine with h | ⟨hinit, -, -⟩
  · exact h
  · exact absurd hinit hi

/-! ### The errors of PAD_LAST (R194, R195) -/

/-- No command but PAD_LAST with MSGLEN = 0 records ERR_EMPTY: busy the code is 1, and idle the other commands record
none, or 2, or (PAD_LAST of a long tail) 4. -/
theorem padLast_of_err_empty {i : Instr} {e : Engine} (he : e.err = 0#4) (hempty : (commandEffect i e).err = 0x3#4) :
    e.phase = .idle ∧ e.msgLen = 0#64 ∧ ∃ tailLen, i = .padLast tailLen := by
  by_cases hnop : i = .nop
  · rw [hnop] at hempty
    exact absurd (he.symm.trans hempty) (by decide)
  cases hp : e.phase with
  | run =>
    rw [commandEffect_run hnop hp] at hempty
    simp [he, ErrCode.bits] at hempty
  | idle =>
    have reserved_ne : e.rejectOpcode.err ≠ 0x3#4 := by
      rw [e.rejectOpcode_eq_raised, if_pos hp, raised_of_no_error he]
      exact show (0x2#4 : BitVec 4) ≠ 0x3#4 by decide
    cases i with
    | nop => exact absurd rfl hnop
    | init =>
      rw [commandEffect_init hp] at hempty
      exact absurd hempty (by rw [e.initDigest_err]; decide)
    | compress =>
      rw [commandEffect_compress hp he, Engine.startRun_err] at hempty
      exact absurd (he.symm.trans hempty) (by decide)
    | padLast len =>
      rw [commandEffect_padLast_checked hp he] at hempty
      rcases e.padLastChecked_cases len with ⟨hn, -⟩ | ⟨-, -, h⟩ | ⟨-, -, b, bs, -, h⟩
      · exact ⟨rfl, hn, len, rfl⟩
      · simp [h, he, ErrCode.bits] at hempty
      · simp [h, he] at hempty
    | reserved4to7 op => exact absurd hempty reserved_ne
    | reserved8toF op => exact absurd hempty reserved_ne

/-- Settles O10: the check for MSGLEN = 0, and the commands that do not reach it. -/
theorem padLastOfEmptyMessageRaisesEmpty : Obligations.PadLastOfEmptyMessageRaisesEmpty := by
  refine ⟨fun s len hp he hn => ?_, fun i s s' hexec he hempty => ?_⟩
  · rw [exec_eq_effect, commandEffect_padLast_checked hp he, Engine.padLastChecked_eq, if_pos hn,
      raised_of_no_error he]
    rfl
  · rw [exec_eq_effect] at hexec
    cases hexec
    exact padLast_of_err_empty he hempty

/-- Settles O11: the check for TAIL_LEN, the last of R160's. -/
theorem padLastOfLongTailRaisesTail : Obligations.PadLastOfLongTailRaisesTail := by
  intro s len hp he hn hlo _
  have hlong : 64 < len := hlo
  rw [exec_eq_effect, commandEffect_padLast_checked hp he, Engine.padLastChecked_eq, if_neg hn, if_pos hlong,
    raised_of_no_error he]
  rfl

/-! ### Writes while busy (R192) -/

/-- The engine's steps neither read nor write the error code. -/
theorem raised_step (code : BitVec 4) (e : Engine) : (raised code e).step = raised code e.step := by
  by_cases ht : e.t.val < 64
  · rw [Engine.step_of_lt ht, Engine.step_of_lt (e := raised code e) ht]
    rfl
  · have ht64 : e.t.val = 64 := by omega
    rw [Engine.step_of_eq ht64, Engine.step_of_eq (e := raised code e) ht64]
    cases hb : e.pend.tail with
    | nil =>
      rw [e.feedbackStep_last hb, (raised code e).feedbackStep_last hb]
      rfl
    | cons b bs =>
      rw [e.feedbackStep_next b bs hb, (raised code e).feedbackStep_next b bs hb]
      rfl

theorem raised_advance (code : BitVec 4) (e : Engine) : (raised code e).advance = raised code e.advance := by
  cases hp : e.phase with
  | idle => rw [e.advance_idle hp, (raised code e).advance_idle hp]
  | run => rw [e.advance_run hp, (raised code e).advance_run hp, raised_step]

theorem raised_advanceN (code : BitVec 4) (e : Engine) (n : Nat) :
    (raised code e).advanceN n = raised code (e.advanceN n) := by
  induction n generalizing e with
  | zero => rfl
  | succ n ih => rw [Engine.advanceN_succ, raised_advance, ih, ← Engine.advanceN_succ]

/-- Settles O13: both writes raise ERR_BUSY, which no engine step reads. -/
theorem writesWhileBusyRaiseBusy : Obligations.WritesWhileBusyRaiseBusy := by
  refine fun s v hp => ⟨fun hop => ?_, fun i hi => ?_, raised_advanceN 0x1#4 s.engine⟩
  · rw [State.hostWrite_eq, Engine.hostWrite, if_pos registerAt_cmd,
      commandEffect_run (mt (decode_eq_nop_iff v).1 hop) hp, Engine.raise_eq_raised]
    rfl
  · rw [State.hostWrite_eq, Engine.hostWrite, registerAt_h _ (by omega), if_neg nofun, Engine.writeRegister,
      Engine.writeH_eq, if_pos hp]
    rfl

/-! ### What clears an error (R197) -/

/-- A recorded error outlives every command but INIT performed while idle. -/
theorem commandEffect_err_cases {e : Engine} (he : e.err ≠ 0#4) (i : Instr) :
    (commandEffect i e).err = e.err ∨ (i = .init ∧ e.phase = .idle ∧ (commandEffect i e).err = 0#4) := by
  rcases commandEffect_cases i e with h | ⟨c, h⟩ | ⟨hi, hp, h⟩ | ⟨-, hzero, -⟩
  · exact .inl (by rw [h])
  · exact .inl (by rw [h, Engine.raise_of_err he])
  · exact .inr ⟨hi, hp, by rw [h, Engine.initDigest_err]⟩
  · exact absurd hzero he

/-- A recorded error outlives every host write but that of INIT while idle. -/
theorem Engine.hostWrite_err_cases {e : Engine} (he : e.err ≠ 0#4) (off : Nat) (v : Word) :
    (e.hostWrite off v).err = e.err ∨
    (off = 0x00 ∧ v.toNat % 16 = 1 ∧ e.phase = .idle ∧ (e.hostWrite off v).err = 0#4) := by
  rcases e.hostWrite_cases off v with
    ⟨h0, h⟩ | ⟨-, h⟩ | ⟨-, h⟩ | ⟨i, -, -, h⟩ | ⟨i, -, -, h⟩ | ⟨j, -, h⟩ | ⟨-, h⟩
  · rw [h]
    rcases commandEffect_err_cases he (decode v) with hc | ⟨hi, hp, hc⟩
    · exact .inl hc
    · exact .inr ⟨h0, (decode_eq_init_iff v).1 hi, hp, hc⟩
  · exact .inl (by rw [h, e.writeMsgLenLo_err])
  · exact .inl (by rw [h, e.writeMsgLenHi_err])
  · exact .inl (by rw [h])
  · exact .inl (by rw [h, Engine.raise_of_err he])
  · exact .inl (by rw [h, e.writeBlk_err])
  · exact .inl (by rw [h])

/-- A step that changes a recorded error clears it, and is INIT's or reset. -/
theorem step_clears_error {s s' : State} (hstep : step s = .next s') (he : s.engine.err ≠ 0#4)
    (hne : s'.engine.err ≠ s.engine.err) :
    s'.engine.err = 0#4 ∧
      ((s.engine.phase = .idle ∧ ∃ v rest, s.mover = .host (.wr 0x00 v) rest ∧ v.toNat % 16 = 1) ∨
        ∃ rest, s.mover = .host .reset rest) := by
  rcases step_cases hstep with ⟨-, rfl⟩ | ⟨op, rest, hm, hhost⟩ | ⟨-, rfl⟩
  · exact absurd s.engine.step_err hne
  · rcases State.hostStep_cases hhost with
      ⟨off, rfl, -, -, rfl⟩ | ⟨off, v, rfl, -, -, rfl⟩ | ⟨rfl, rfl⟩ | ⟨rfl, rfl⟩
    · exact absurd (by simp) hne
    · simp only [State.setEngine_engine, State.countHostStep_engine] at hne ⊢
      rcases Engine.hostWrite_err_cases he off v with h | ⟨rfl, hop, hp, h⟩
      · exact absurd h hne
      · exact ⟨h, .inl ⟨hp, v, rest, hm, hop⟩⟩
    · exact absurd (by simp) hne
    · exact ⟨rfl, .inr ⟨rest, hm⟩⟩
  · exact absurd rfl hne

theorem step_init_err {s s' : State} {v : Word} {rest : List HostOp} (hstep : step s = .next s')
    (hm : s.mover = .host (.wr 0x00 v) rest) (hop : v.toNat % 16 = 1) (hp : s.engine.phase = .idle) :
    s'.engine.err = 0#4 := by
  rw [step_of_write_cmd hm, (decode_eq_init_iff v).2 hop, exec_eq_effect, taken_engine, commandEffect_init hp] at hstep
  cases hstep
  rfl

theorem step_reset_err {s s' : State} {rest : List HostOp} (hstep : step s = .next s')
    (hm : s.mover = .host .reset rest) : s'.engine.err = 0#4 := by
  rw [step_of_host hm] at hstep
  cases hstep
  rfl

/-- Settles O20: what can clear an error, and that both of these do. -/
theorem errorIsClearedOnlyByInitAndReset : Obligations.ErrorIsClearedOnlyByInitAndReset := fun _ _ hstep =>
  ⟨step_clears_error hstep, fun ⟨_, _, hm, hop⟩ => step_init_err hstep hm hop,
    fun ⟨_, hm⟩ => step_reset_err hstep hm⟩

/-! ### Several instances (R206) -/

/-- What a step at `k` can do to a platform, when it answers a next state: nothing where no state stands at `k`, else
that state's own step. -/
theorem Platform.stepAt_cases {p p' : Platform} {k : Nat} (h : p.stepAt k = .next p') :
    (p.instances[k]? = none ∧ p' = p) ∨
    ∃ s s', p.instances[k]? = some s ∧ step s = .next s' ∧ p' = { p with instances := p.instances.set k s' } := by
  unfold Platform.stepAt at h
  split at h
  · cases h
    exact .inl ⟨‹_›, rfl⟩
  · split at h
    · cases h
      exact .inr ⟨_, _, ‹_›, ‹_›, rfl⟩
    · cases h
    · cases h

/-- Settles O42: the list of instances is set at `k` alone, to the next state of the one there. -/
theorem instancesAreIndependent : Obligations.InstancesAreIndependent := by
  intro p p' k hstep
  rcases Platform.stepAt_cases hstep with ⟨hnone, rfl⟩ | ⟨s, s', hs, hnext, rfl⟩
  · exact ⟨rfl, fun _ _ => rfl, fun s hs => absurd (hnone.symm.trans hs) nofun⟩
  · refine ⟨List.length_set, fun j hj => List.getElem?_set_ne hj.symm, fun u hu => ⟨s', ?_, ?_⟩⟩
    · rwa [← Option.some.inj (hs.symm.trans hu)]
    · have hk : k < p.instances.length := (List.getElem?_eq_some_iff.1 hs).1
      exact List.getElem?_set_self hk

end Sys2Proof.Machine
end

