-- ==== Sys2Proof/Proofs/ResetAndProgress.lean ====
section
/-! Reset (spec/70_reset_and_hazards.md R220, R221), and the end of every running command (R228). The number of engine
steps to come falls by one at each engine step and does not grow while the engine runs; between two engine steps the
count of host steps falls (spec/20_memory.md R59). -/

namespace Sys2Proof.Machine

open Sys2Proof.Statements

/-! ### Reset (R220, R221) -/

theorem step_of_reset {s : State} {rest : List HostOp} (hm : s.mover = .host .reset rest) :
    step s = .next (taken s rest).assertReset := step_of_host hm

/-- Settles O32: the whole engine is replaced, and the host loses the action alone. -/
theorem resetGivesTheResetValues : Obligations.ResetGivesTheResetValues := by
  intro s rest hm
  refine ⟨(taken s rest).assertReset, step_of_reset hm, ?_⟩
  rw [State.assertReset_engine, State.assertReset_host, taken_host]
  exact ⟨rfl, by decide, rfl, by decide, rfl, rfl, rfl, rfl, sameVisible_refl Engine.reset⟩

/-! ### The engine steps to come (R151, R229) -/

/-- How many engine steps end the running command: 65 for each block behind the head, and for the head the rounds left
and the feedback. -/
def Engine.stepsLeft (e : Engine) : Nat :=
  match e.phase with
  | .idle => 0
  | .run => 65 * e.pend.tail.length + (65 - e.t.val)

theorem Engine.stepsLeft_idle {e : Engine} (hp : e.phase = .idle) : e.stepsLeft = 0 := by
  rw [Engine.stepsLeft, hp]

theorem Engine.stepsLeft_run {e : Engine} (hp : e.phase = .run) :
    e.stepsLeft = 65 * e.pend.tail.length + (65 - e.t.val) := by
  rw [Engine.stepsLeft, hp]

/-- An engine step is one of the steps to come, whether a round, the feedback of the last block or another's. -/
theorem Engine.stepsLeft_step {e : Engine} (hp : e.phase = .run) : e.step.stepsLeft + 1 = e.stepsLeft := by
  rw [Engine.stepsLeft_run hp]
  rcases e.step_cases with ⟨ht, hround⟩ | ⟨ht, hfeedback⟩
  · rw [hround, Engine.stepsLeft_run ((e.roundStep_phase ht).trans hp), e.roundStep_pend, e.roundStep_t]
    dsimp only
    omega
  · rw [hfeedback, ht]
    cases hb : e.pend.tail with
    | nil => rw [e.feedbackStep_last hb, Engine.stepsLeft_idle rfl, List.length_nil]
    | cons b bs =>
      rw [e.feedbackStep_next b bs hb, Engine.stepsLeft_run]
      · rfl
      · exact hp

/-! ### Host steps while the engine runs -/

theorem State.hostStep_turns {s s' : State} {op : HostOp} {rest : List HostOp} (h : s.hostStep op rest = .next s') :
    s'.turns = s.turns := by
  rcases State.hostStep_cases h with ⟨off, -, -, -, rfl⟩ | ⟨off, v, -, -, -, rfl⟩ | ⟨-, rfl⟩ | ⟨-, rfl⟩
  · rfl
  · rfl
  · exact s.hostPoll_turns rest
  · rfl

/-- A host step leaves a running command as it is, or abandons it by reset (R192, R221). -/
theorem State.hostStep_stepsLeft_le {s s' : State} {op : HostOp} {rest : List HostOp} (hp : s.engine.phase = .run)
    (h : s.hostStep op rest = .next s') : s'.engine.stepsLeft ≤ s.engine.stepsLeft := by
  rcases State.hostStep_cases h with ⟨off, -, -, -, rfl⟩ | ⟨off, v, -, -, -, rfl⟩ | ⟨-, rfl⟩ | ⟨-, rfl⟩
  · exact Nat.le_refl _
  · obtain ⟨blk, msgLen, err, hwrite⟩ := Engine.hostWrite_run hp off v
    rw [State.setEngine_engine, hwrite]
    exact Nat.le_refl _
  · rw [s.hostPoll_engine]
  · exact Nat.zero_le _

/-! ### Every running command ends (R228) -/

/-- What falls at each step while the engine runs: the engine steps to come, and between two of them the host steps
that still come before the next (R59). -/
def State.progress (s : State) : Nat × Nat := (s.engine.stepsLeft, s.turns.wait)

theorem step_progress_lt {s s' : State} (hp : s.engine.phase = .run) (hstep : step s = .next s') :
    Prod.Lex (· < ·) (· < ·) s'.progress s.progress := by
  rcases step_cases hstep with ⟨-, rfl⟩ | ⟨op, rest, hm, hhost⟩ | ⟨hm, -⟩
  · exact .left _ _ (by rw [← Engine.stepsLeft_step hp]; exact Nat.lt_succ_self _)
  · have hsteps : s'.engine.stepsLeft ≤ s.engine.stepsLeft := by
      rw [← s.countHostStep_engine] at hp ⊢
      exact State.hostStep_stepsLeft_le hp hhost
    have hwait : s'.turns.wait < s.turns.wait := by
      rw [State.hostStep_turns hhost, s.countHostStep_wait hp]
      exact Nat.sub_one_lt_of_lt (State.wait_pos_of_host hm hp)
    exact Prod.Lex.right' _ hsteps hwait
  · exact absurd (hp.symm.trans (State.mover_nobody hm).1) nofun

/-- A step takes actions from the host's list and adds none, so the list stays legal. -/
theorem step_keeps_legalTodo {s s' : State} (hlegal : s.legalTodo) (hstep : step s = .next s') : s'.legalTodo := by
  unfold State.legalTodo at *
  rcases stepsInterleaveHostAndEngine s s' hstep with
    ⟨-, -, h⟩ | ⟨op, rest, htodo, h | ⟨-, -, h⟩⟩ | ⟨-, -, rfl⟩
  · rwa [h]
  · rw [h]
    exact fun op' hmem => hlegal op' (htodo ▸ List.mem_cons_of_mem op hmem)
  · rwa [h]
  · exact hlegal

/-- With only host steps to come the machine does not stop (R52). -/
theorem exists_step_of_legalTodo {s : State} (hlegal : s.legalTodo) : ∃ s', step s = .next s' := by
  unfold step
  cases hm : s.mover with
  | engine => exact ⟨_, rfl⟩
  | host op rest => exact hostStep_of_legal _ op rest (hlegal op (State.mover_host hm ▸ List.mem_cons_self))
  | nobody => exact ⟨_, rfl⟩

/-- From any state with a legal list some number of steps leads to an idle engine, by recursion on the progress. -/
theorem exists_run_to_idle (s : State) (hlegal : s.legalTodo) :
    ∃ n s', core.run n s = .next s' ∧ s'.engine.phase = .idle := by
  cases hp : s.engine.phase with
  | idle => exact ⟨0, s, rfl, hp⟩
  | run =>
    obtain ⟨u, hstep⟩ := exists_step_of_legalTodo hlegal
    obtain ⟨n, s', hrun, hidle⟩ := exists_run_to_idle u (step_keeps_legalTodo hlegal hstep)
    exact ⟨n + 1, s', (run_succ_next n hstep).trans hrun, hidle⟩
termination_by s.progress
decreasing_by exact step_progress_lt hp hstep

/-- Settles O40: a running engine is a case of `exists_run_to_idle`. -/
theorem runningCommandFinishes : Obligations.RunningCommandFinishes :=
  fun s _ hlegal => exists_run_to_idle s hlegal

end Sys2Proof.Machine
end

