-- ==== Sys2Proof/Proofs/HostAccess.lean ====
section
/-! The host's next access: the command words of the spec's examples (R72, R76, V27), an offset past the window's end
(R50), and whether the host or the running engine moves next (R59). -/

namespace Sys2Proof.Machine

/-! ### Command words (R71, R72) -/

/-- Settles O1: a word's command is read off its opcode and, for PAD_LAST, its tail length. -/
theorem sampleWordsDecodeAsWritten : Obligations.SampleWordsDecodeAsWritten :=
  ⟨(decode_eq_nop_iff _).2 rfl, (decode_eq_nop_iff _).2 rfl, (decode_eq_init_iff _).2 rfl,
    decode_eq_of_fields rfl rfl nofun, decode_eq_of_fields rfl rfl nofun,
    (decode_eq_padLast_iff _ _).2 ⟨rfl, rfl⟩, (decode_eq_padLast_iff _ _).2 ⟨rfl, rfl⟩,
    (decode_eq_padLast_iff _ _).2 ⟨rfl, rfl⟩, (decode_eq_padLast_iff _ _).2 ⟨rfl, rfl⟩,
    (decode_eq_padLast_iff _ _).2 ⟨rfl, rfl⟩, decode_eq_of_fields rfl rfl nofun,
    decode_eq_of_fields rfl rfl nofun, decode_eq_of_fields rfl rfl nofun⟩

/-! ### Outside the window (R50) -/

/-- The window's end is checked before the alignment (log 6, log 7). -/
theorem checkOffset_outside {off : Nat} (x : Host.Outcome State Fault Refusal) (hw : windowSize ≤ off) :
    checkOffset off x = .fault (.outsideWindow off) := if_pos hw

/-- Settles O26: both accesses go through `checkOffset`. -/
theorem outsideTheWindowFaults : Obligations.OutsideTheWindowFaults := fun _ _ _ hw =>
  ⟨fun hm => (step_of_host hm).trans (checkOffset_outside _ hw),
    fun _ hm => (step_of_host hm).trans (checkOffset_outside _ hw)⟩

/-! ### Who moves next (R59) -/

theorem State.mover_of_wait_eq_zero {s : State} (hp : s.engine.phase = .run) (hwait : s.turns.wait = 0) :
    s.mover = .engine := by
  unfold State.mover
  rw [hp, hwait]
  cases s.host.todo with
  | nil => rfl
  | cons op rest => rfl

/-- The converse of `State.wait_pos_of_host`. -/
theorem State.mover_of_wait_pos {s : State} {op : HostOp} {rest : List HostOp} (hp : s.engine.phase = .run)
    (htodo : s.host.todo = op :: rest) (hwait : 0 < s.turns.wait) : s.mover = .host op rest := by
  obtain ⟨n, hn⟩ := Nat.exists_eq_add_one.2 hwait
  unfold State.mover
  rw [hp, htodo, hn]

/-- Settles O31: the head of `waits` is the count that decides, and a host step takes one from it. -/
theorem eitherAgentMayMoveNext : Obligations.EitherAgentMayMoveNext := fun _ _ _ n _ hp htodo =>
  ⟨State.mover_of_wait_eq_zero hp rfl, State.mover_of_wait_pos hp htodo n.succ_pos, State.countHostStep_wait _ hp⟩

end Sys2Proof.Machine
end
